-- ==== Sys2Proof/Word.lean ====
section
/-! DEFINITION. The widths the block works in: a framebuffer byte and a descriptor word. -/

namespace Sys2Proof

/-- A byte of the framebuffer or of a bus transfer (00_scope.md R14, R15). -/
abbrev Byte := BitVec 8

/-- One 32-bit word of a descriptor (30_encoding.md R46). -/
abbrev Word := BitVec 32

/-- A 7-bit address on the two-wire bus (20_memory.md R31). -/
abbrev BusAddr := BitVec 7

end Sys2Proof
end

