-- ==== Sys2Proof/Config.lean ====
section
/-! DEFINITION. The implementation parameters of 00_scope.md R7 to R12, and the values the spec leaves free. -/

namespace Sys2Proof

/-- The answer of a bus write that returns (40_transport.md R59). -/
inductive BusResult where
  | ack
  | fail
deriving DecidableEq, Repr, Inhabited

/-- What the bus environment does with one bus write: it answers, or (`none`) it never does (R59). -/
abbrev BusReply := Option BusResult

/-- One group of `INIT_SEQ`: a non-empty list of command bytes (41_init.md R67). -/
structure CommandGroup where
  first : Byte
  rest : List Byte
deriving DecidableEq, Repr, Inhabited

def CommandGroup.bytes (g : CommandGroup) : List Byte := g.first :: g.rest

/-- The 13 groups of the initialisation sequence under the source's names (41_init.md R67). -/
structure InitGroups where
  clockDivider : CommandGroup
  multiplexRatio : CommandGroup
  displayOffset : CommandGroup
  startLine : CommandGroup
  chargePumpEnable : CommandGroup
  addressingMode : CommandGroup
  segmentRemap : CommandGroup
  scanDirection : CommandGroup
  comPinConfiguration : CommandGroup
  contrast : CommandGroup
  preChargeTiming : CommandGroup
  vcomDeselectLevel : CommandGroup
  displayOn : CommandGroup
deriving DecidableEq, Repr, Inhabited

/-- The groups in the order R67 makes normative. -/
def InitGroups.inOrder (g : InitGroups) : List CommandGroup :=
  [g.clockDivider, g.multiplexRatio, g.displayOffset, g.startLine, g.chargePumpEnable, g.addressingMode,
   g.segmentRemap, g.scanDirection, g.comPinConfiguration, g.contrast, g.preChargeTiming,
   g.vcomDeselectLevel, g.displayOn]

/-- The parameters of a block instance: constants for its life (10_state.md R27; log entry 1). -/
structure Config where
  /-- WIDTH and HEIGHT, in pixels (R7) -/
  width : Nat
  height : Nat
  /-- DEV_ADDR (R9) -/
  devAddr : BusAddr
  /-- CTRL_CMD and CTRL_DATA (R10) -/
  ctrlCmd : Byte
  ctrlData : Byte
  /-- INIT_SEQ, as its groups (R11) -/
  initGroups : InitGroups
  /-- SETTLE_MS (R12) -/
  settleMs : Nat
deriving DecidableEq, Repr, Inhabited

namespace Config

/-- FB_SIZE (R8). -/
def fbSize (c : Config) : Nat := c.width * c.height / 8

/-- NUM_PAGES (R8). -/
def numPages (c : Config) : Nat := c.height / 8

/-- INIT_SEQ: the concatenation of the 13 groups (41_init.md R67). -/
def initSeq (c : Config) : List Byte := c.initGroups.inOrder.flatMap CommandGroup.bytes

/-- The constraints the spec puts on the parameters (R7, R10; those of R11 hold by the type). -/
abbrev wf (c : Config) : Prop :=
  1 ≤ c.width ∧ 8 ≤ c.height ∧ c.height % 8 = 0 ∧ c.ctrlCmd ≠ c.ctrlData

/-! The OPEN parameters (R9 to R12): constants nothing can evaluate (log entry 3). -/

opaque openDevAddr : BusAddr
opaque openCtrlCmd : Byte
/-- How far CTRL_DATA lies above CTRL_CMD, less one: R10 asks only that the two differ. -/
opaque openCtrlGap : Fin 255
opaque openInitGroups : InitGroups
opaque openSettleMs : Nat

/-- The answer of the `n`-th free draw of the bus environment, "under no law" (40_transport.md R59;
log entry 4). -/
opaque freeBusReply : Nat → BusReply

/-- The byte an unspecified framebuffer holds after a reset event: draw number, then address
(10_state.md R29; log entry 9). -/
opaque freeFbByte : Nat → Nat → Byte

/-- The instance `State.reset` starts: the default geometry of R7 (log entry 2), the rest OPEN. -/
def build : Config where
  width := 128
  height := 64
  devAddr := openDevAddr
  ctrlCmd := openCtrlCmd
  ctrlData := openCtrlCmd + BitVec.ofNat 8 (openCtrlGap.val + 1)
  initGroups := openInitGroups
  settleMs := openSettleMs

end Config

end Sys2Proof
end

