-- ==== Sys2Proof/Syntax.lean ====
section
/-! DEFINITION. The ten operations (30_encoding.md R49), one constructor per row of spec/opcode_table.json,
and the pseudo-operations of R58. -/

namespace Sys2Proof

/-- An operation with its operands: coordinates and extents are integers (00_scope.md R13, R15), in the
source's argument order `(x, y, w, h, color)` (30_encoding.md R57). -/
inductive Instr where
  | init
  | clear
  | showFrame
  | cmd (b : Byte)
  | pixel (x y : Int) (c : Bool)
  | rect (x y w h : Int) (c : Bool)
  | fill (x y w h : Int) (c : Bool)
  | dashed (x y w h : Int) (c : Bool)
  | dotted (x y w h : Int) (c : Bool)
  | border (s : Fin 8) (x y w h : Int) (c : Bool)
deriving DecidableEq, Repr

/-- The pseudo-operations of R58. -/
inductive Pseudo where
  | setPx (x y : Int)
  | clrPx (x y : Int)
  | fillScreen (c : Bool)
  | frame (s : Fin 8) (bx bY bw bh qx qy qw qh : Int)
deriving DecidableEq, Repr

/-- The drawing operations of 42_framebuffer.md R79, which perform no bus traffic. -/
def Instr.draws : Instr → Bool
  | .init => false
  | .clear => true
  | .showFrame => false
  | .cmd _ => false
  | .pixel _ _ _ => true
  | .rect _ _ _ _ _ => true
  | .fill _ _ _ _ _ => true
  | .dashed _ _ _ _ _ => true
  | .dotted _ _ _ _ _ => true
  | .border _ _ _ _ _ _ => true

end Sys2Proof
end

