-- ==== Sys2Proof/WellFormed.lean ====
section
/-! DEFINITION. Which operations a descriptor can carry: every coordinate and extent fits a 32-bit
two's-complement word (00_scope.md R13, 30_encoding.md R57). The other operands are bounded by their types. -/

namespace Sys2Proof

/-- The range `-2^31 .. 2^31-1` of an operand (R13) and of every computed coordinate (60_exceptions.md R97). -/
def fits32 (v : Int) : Bool := -2147483648 ≤ v && v ≤ 2147483647

/-- All four geometry operands fit. -/
def geometryFits (x y w h : Int) : Bool := fits32 x && fits32 y && fits32 w && fits32 h

/-- An operation that has a descriptor. -/
def Instr.wf : Instr → Bool
  | .init => true
  | .clear => true
  | .showFrame => true
  | .cmd _ => true
  | .pixel x y _ => fits32 x && fits32 y
  | .rect x y w h _ => geometryFits x y w h
  | .fill x y w h _ => geometryFits x y w h
  | .dashed x y w h _ => geometryFits x y w h
  | .dotted x y w h _ => geometryFits x y w h
  | .border _ x y w h _ => geometryFits x y w h

end Sys2Proof
end

