-- ==== Sys2Proof/Decode.lean ====
section
/-! DEFINITION. Descriptors to operations and back: the decoder of 30_encoding.md R50, total on any word
sequence and rejecting by name; the encoder; the byte layout of R56; and the word the opcode table numbers. -/

namespace Sys2Proof

/-- A descriptor: a sequence of 32-bit words, the control word first (R46). -/
abbrev Descriptor := List Word

/-- Why a descriptor does not decode (R50, R51, R52, R53). -/
inductive DecodeFault where
  | length
  | illegalOp
  | reserved
deriving DecidableEq, Repr

/-! The fields of the control word (R47). -/

def fieldOpc (d : Word) : BitVec 8 := d.extractLsb' 0 8
def fieldColor (d : Word) : Bool := d.getLsbD 8
def fieldStyle (d : Word) : BitVec 3 := d.extractLsb' 9 3
def fieldCmdb (d : Word) : Byte := d.extractLsb' 16 8

/-- `sext_32`: a word read as two's complement (00_scope.md R15). -/
def sext32 (v : Word) : Int := v.toInt

/-- The operations by name, before their operands are read. -/
inductive Opcode where
  | init | clear | showFrame | cmd | pixel | rect | fill | dashed | dotted | border
deriving DecidableEq, Repr

/-- One row of R49: the descriptor's length and the match and mask on its control word. -/
structure OpcodeRow where
  op : Opcode
  words : Nat
  value : Word
  mask : Word
deriving DecidableEq, Repr

/-- The opcode map of R49, complete. -/
def opcodeRows : List OpcodeRow :=
  [ ⟨.init,      1, 0x00000001#32, 0xFFFFFFFF#32⟩,
    ⟨.clear,     1, 0x00000002#32, 0xFFFFFFFF#32⟩,
    ⟨.showFrame, 1, 0x00000003#32, 0xFFFFFFFF#32⟩,
    ⟨.cmd,       1, 0x00000004#32, 0xFF00FFFF#32⟩,
    ⟨.pixel,     3, 0x00000010#32, 0xFFFFFEFF#32⟩,
    ⟨.rect,      5, 0x00000011#32, 0xFFFFFEFF#32⟩,
    ⟨.fill,      5, 0x00000012#32, 0xFFFFFEFF#32⟩,
    ⟨.dashed,    5, 0x00000013#32, 0xFFFFFEFF#32⟩,
    ⟨.dotted,    5, 0x00000014#32, 0xFFFFFEFF#32⟩,
    ⟨.border,    5, 0x00000015#32, 0xFFFFF0FF#32⟩ ]

/-- The row an opcode selects; `none` where the opcode is unassigned (R51). -/
def rowOf (opc : BitVec 8) : Option OpcodeRow :=
  opcodeRows.find? (fun r => fieldOpc r.value == opc)

/-- Operand word `k` of a descriptor, as the integer R48 reads. -/
def operand (d : Descriptor) (k : Nat) : Int := sext32 (d.getD k 0#32)

/-- The operation a row's descriptor carries, its fields read once (R47, R48, R50). -/
def readOperands (op : Opcode) (d0 : Word) (d : Descriptor) : Instr :=
  match op with
  | .init => .init
  | .clear => .clear
  | .showFrame => .showFrame
  | .cmd => .cmd (fieldCmdb d0)
  | .pixel => .pixel (operand d 1) (operand d 2) (fieldColor d0)
  | .rect => .rect (operand d 1) (operand d 2) (operand d 3) (operand d 4) (fieldColor d0)
  | .fill => .fill (operand d 1) (operand d 2) (operand d 3) (operand d 4) (fieldColor d0)
  | .dashed => .dashed (operand d 1) (operand d 2) (operand d 3) (operand d 4) (fieldColor d0)
  | .dotted => .dotted (operand d 1) (operand d 2) (operand d 3) (operand d 4) (fieldColor d0)
  | .border =>
    .border (fieldStyle d0).toFin (operand d 1) (operand d 2) (operand d 3) (operand d 4) (fieldColor d0)

/-- The decoder, its checks in the order of R50 (and steps 1 to 4 of 60_exceptions.md R96). -/
def decode (d : Descriptor) : Except DecodeFault Instr :=
  match d with
  | [] => .error .length
  | d0 :: _ =>
    match rowOf (fieldOpc d0) with
    | none => .error .illegalOp
    | some r =>
      if d.length ≠ r.words then .error .length
      else if d0 &&& r.mask ≠ r.value then .error .reserved
      else .ok (readOperands r.op d0 d)

/-! ## The encoder -/

/-- A control word from its fields; the reserved fields are 0 (R47). -/
def controlWord (opc : BitVec 8) (color : Bool) (style : Fin 8) (cmdb : Byte) : Word :=
  0#8 ++ cmdb ++ 0#4 ++ BitVec.ofFin (w := 3) style ++ BitVec.ofBool color ++ opc

/-- An operand word: the two's complement of the integer (R13, R48). -/
def operandWord (v : Int) : Word := BitVec.ofInt 32 v

/-- The `PXL` and `GEO` formats of R46 after the control word. -/
def pxlWords (x y : Int) : Descriptor := [operandWord x, operandWord y]
def geoWords (x y w h : Int) : Descriptor := [operandWord x, operandWord y, operandWord w, operandWord h]

/-- The descriptor of an operation (R47, R48, R49, R57). -/
def encode : Instr → Descriptor
  | .init => [controlWord 0x01#8 false 0 0#8]
  | .clear => [controlWord 0x02#8 false 0 0#8]
  | .showFrame => [controlWord 0x03#8 false 0 0#8]
  | .cmd b => [controlWord 0x04#8 false 0 b]
  | .pixel x y c => controlWord 0x10#8 c 0 0#8 :: pxlWords x y
  | .rect x y w h c => controlWord 0x11#8 c 0 0#8 :: geoWords x y w h
  | .fill x y w h c => controlWord 0x12#8 c 0 0#8 :: geoWords x y w h
  | .dashed x y w h c => controlWord 0x13#8 c 0 0#8 :: geoWords x y w h
  | .dotted x y w h c => controlWord 0x14#8 c 0 0#8 :: geoWords x y w h
  | .border s x y w h c => controlWord 0x15#8 c s 0#8 :: geoWords x y w h

/-! ## Descriptors stored as bytes (R56) -/

/-- The four bytes of a word, least significant first. -/
def wordBytes (v : Word) : List Byte :=
  [v.extractLsb' 0 8, v.extractLsb' 8 8, v.extractLsb' 16 8, v.extractLsb' 24 8]

/-- A descriptor as a host stores it: each word little-endian, the words in order. -/
def descriptorBytes (d : Descriptor) : List Byte := d.flatMap wordBytes

/-- The descriptor a run of stored bytes holds; `none` where the bytes make no whole words (log entry 18). -/
def wordsOfBytes : List Byte → Option Descriptor
  | [] => some []
  | b0 :: b1 :: b2 :: b3 :: rest =>
    match wordsOfBytes rest with
    | none => none
    | some d => some ((b3 ++ b2 ++ b1 ++ b0) :: d)
  | _ => none

/-! ## The table's numbering of bits -/

/-- How many words the descriptor of a table word has: the row's own length, or more where the table gives
the word more bits (an unassigned opcode: at least one word; log entry 10). -/
def tableWordLength (nbits w : Nat) : Nat :=
  let own := match rowOf (BitVec.ofNat 8 (w % 2 ^ nbits)) with
    | none => 1
    | some r => r.words
  max own ((nbits + 31) / 32)

/-- The descriptor whose bits are the low `nbits` of `w`, bit 0 the least significant bit of `d[0]`, each
later word's bits counting on from it; every bit above is 0. -/
def tableDescriptor (nbits w : Nat) : Descriptor :=
  (List.range (tableWordLength nbits w)).map (fun k => BitVec.ofNat 32 ((w % 2 ^ nbits) >>> (32 * k)))

/-- What the decoder reads from the instruction whose bits are `w`. -/
def decodeTableWord (nbits w : Nat) : Option Instr :=
  match decode (tableDescriptor nbits w) with
  | .error _ => none
  | .ok i => some i

end Sys2Proof
end

