-- ==== Sys2Proof/Machine/State.lean ====
section
/-! DEFINITION. The state of the block (10_state.md R18), the environment's inputs, and reset (R29). -/

namespace Sys2Proof.Machine

/-- CTRL (10_state.md R21). -/
inductive Ctrl where
  | uninitialized
  | ready
deriving DecidableEq, Repr

/-- FAULT: the fault codes of 60_exceptions.md R93. -/
inductive FaultCode where
  | none
  | uninit
  | illegalOp
  | reserved
  | length
  | style
  | range
deriving DecidableEq, Repr

/-- LAST: the status codes of 60_exceptions.md R92. -/
inductive Status where
  | ok
  | transportFailure
  | faulted
deriving DecidableEq, Repr

/-- One entry of LOG (10_state.md R26). -/
inductive BusEvent where
  | write (addr : BusAddr) (bytes : List Byte) (hold : Bool) (r : BusResult)
  | sleep (ms : Nat)
deriving DecidableEq, Repr

/-- What the host does to the block (00_scope.md R17): it submits a descriptor (30_encoding.md R46) or
resets the block (70_reset_and_hazards.md R107). -/
inductive HostEvent where
  | submit (d : Descriptor)
  | reset
deriving DecidableEq, Repr

/-- The framebuffer's bytes: (address, byte) pairs, addresses rising, no byte that equals what an unlisted
address reads as. -/
abbrev Memory := List Host.Cell

/-- The block, with the inputs its environment gives it. -/
structure State where
  /-- the instance's parameters, constants (R27; log entry 1) -/
  cfg : Config
  /-- FB (R19) -/
  fb : Memory
  /-- CTRL (R21) -/
  ctrl : Ctrl
  /-- FAULT (R23) -/
  fault : FaultCode
  /-- LAST (R24) -/
  last : Status
  /-- LOG, oldest first (R26) -/
  log : List BusEvent
  /-- an operation is in progress for ever (60_exceptions.md R102; log entry 5) -/
  hung : Bool
  /-- what the host does next, oldest first (R17, R42; log entry 8) -/
  host : List HostEvent
  /-- how the bus environment treats the next bus writes, oldest first (40_transport.md R59; log entry 4) -/
  bus : List BusReply
  /-- how many free values have been drawn (log entry 4) -/
  draws : Nat
deriving DecidableEq, Repr

/-- Why the machine stops with a fault. A fault code of R93 is not one of these: fault entry is a next
state. -/
inductive Fault where
  /-- Raised by `step` alone, on a block whose operation is in progress for ever (60_exceptions.md R102).
  Safe: the block takes no step either. -/
  | busHung
deriving DecidableEq, Repr

/-- Why the machine gives no meaning. -/
inductive Refusal where
  /-- An instruction with no meaning yet. Safe: it stops. -/
  | notModelled (mnemonic : String)
  /-- Raised by `step` alone, on a submission to a faulted block (60_exceptions.md R95). Safe: the block
  takes no step either. -/
  | blockFaulted
  /-- Answered by the host's read of FB alone, outside the states in which R30 defines it (log entry 13).
  Safe: no value is given. -/
  | frameUnreadable
deriving DecidableEq, Repr

/-- The block right after reset (10_state.md R29): FB lists nothing (log entry 6), no operation is in
progress, the environment has given no input. -/
def State.reset : State where
  cfg := Config.build
  fb := []
  ctrl := .uninitialized
  fault := .none
  last := .ok
  log := []
  hung := false
  host := []
  bus := []
  draws := 0

end Sys2Proof.Machine
end

