-- ==== Sys2Proof/Machine/Flags.lean ====
section
/-! DEFINITION. The codes of CTRL, FAULT and LAST, and the status word the host reads (10_state.md R24). -/

namespace Sys2Proof.Machine

/-- The encoding of CTRL (10_state.md R21), STATUS bit 2. -/
def ctrlBit : Ctrl → BitVec 1
  | .uninitialized => 0#1
  | .ready => 1#1

/-- The value of FAULT (60_exceptions.md R93), STATUS bits 7 to 4. -/
def faultBits : FaultCode → BitVec 4
  | .none => 0#4
  | .uninit => 1#4
  | .illegalOp => 2#4
  | .reserved => 3#4
  | .length => 4#4
  | .style => 5#4
  | .range => 6#4

/-- The value of LAST (60_exceptions.md R92), STATUS bits 1 and 0. -/
def statusBits : Status → BitVec 2
  | .ok => 0#2
  | .transportFailure => 1#2
  | .faulted => 2#2

/-- STATUS: bits [31:8] and [3] read 0 (10_state.md R24). -/
def State.status (s : State) : Word :=
  0#24 ++ faultBits s.fault ++ 0#1 ++ ctrlBit s.ctrl ++ statusBits s.last

/-- The fault code a rejected descriptor raises (30_encoding.md R50). -/
def decodeFaultCode : DecodeFault → FaultCode
  | .length => .length
  | .illegalOp => .illegalOp
  | .reserved => .reserved

/-- The status an answered transfer completes with (60_exceptions.md R92, R98). -/
def statusOf : BusResult → Status
  | .ack => .ok
  | .fail => .transportFailure

end Sys2Proof.Machine
end

