-- ==== Sys2Proof/Machine/Operands.lean ====
section
/-! DEFINITION. What the geometry operands mean: the pixel map, the clipping test, the range check, the
pixel sets of the shapes, and the same shapes as the loops the spec writes. -/

namespace Sys2Proof.Machine

/-! ## Pixels (20_memory.md R32, R36) -/

/-- The clipping test of R36. -/
def inBounds (c : Config) (x y : Int) : Bool :=
  0 ≤ x && x < c.width && 0 ≤ y && y < c.height

/-- `idx(x, y)` of R32, for an in-bounds pixel. -/
def pixelByte (c : Config) (x y : Int) : Nat := x.toNat + y.toNat / 8 * c.width

/-- `bit(x, y)` of R32. -/
def pixelBit (y : Int) : Nat := y.toNat % 8

/-- The pixel that bit `b` of byte `i` holds: the inverse map of R35. -/
def pixelOf (c : Config) (i b : Nat) : Int × Int :=
  (((i % c.width : Nat) : Int), ((8 * (i / c.width) + b : Nat) : Int))

/-! ## The range check (60_exceptions.md R97) -/

/-- Both computed extremes `x + w - 1` and `y + h - 1` lie in the 32-bit range. -/
def extremesFit (x y w h : Int) : Bool := fits32 (x + w - 1) && fits32 (y + h - 1)

/-- RECT, DASHED, DOTTED and BORDER pass the range check. -/
def outlineInRange (x y w h : Int) : Bool := !(0 < w || 0 < h) || extremesFit x y w h

/-- FILL passes the range check. -/
def fillInRange (x y w h : Int) : Bool := !(0 < w && 0 < h) || extremesFit x y w h

/-! ## The pixel sets (43_shapes.md R80, R83; R88 says they are exact) -/

/-- `k` is in `S(n)` for stride `s` (R80). -/
def onStride (s : Nat) (n k : Int) : Bool := 0 ≤ k && k < n && k % s == 0

/-- `(px, py)` is in `Top ∪ Bottom ∪ Left ∪ Right` of R80. -/
def inOutline (x y w h : Int) (s : Nat) (px py : Int) : Bool :=
  ((py == y || py == y + h - 1) && onStride s w (px - x)) ||
  ((px == x || px == x + w - 1) && onStride s h (py - y))

/-- `(px, py)` is in the region of FILL (R83). -/
def inRegion (x y w h : Int) (px py : Int) : Bool :=
  x ≤ px && px < x + w && y ≤ py && py < y + h

/-! ## The same shapes as loops (the pseudocode of R80 and R83), which the meanings do not run -/

/-- The indices of `for i in [0, n) step s` (00_scope.md R16). -/
def stepsTo (n : Int) (s : Nat) : List Int :=
  (List.range ((n.toNat + (s - 1)) / s)).map (fun k => ((k * s : Nat) : Int))

/-- The pixels `Outline` writes, in the order of its two loops (R80). -/
def outlinePixels (x y w h : Int) (s : Nat) : List (Int × Int) :=
  (stepsTo w s).flatMap (fun i => [(x + i, y), (x + i, y + h - 1)]) ++
  (stepsTo h s).flatMap (fun j => [(x, y + j), (x + w - 1, y + j)])

/-- The pixels FILL writes, in the order of its nested loops (R83). -/
def fillPixels (x y w h : Int) : List (Int × Int) :=
  (stepsTo w 1).flatMap (fun i => (stepsTo h 1).map (fun j => (x + i, y + j)))

end Sys2Proof.Machine
end

