-- ==== Sys2Proof/Machine/Ops.lean ====
section
/-! DEFINITION. The shared operations: framebuffer bytes and pixels, the host's read, fault entry and
completion, the bus, reset, and what the block does with the host's next event. -/

namespace Sys2Proof.Machine

/-! ## Framebuffer bytes (20_memory.md R31, R37) -/

/-- What an unlisted framebuffer byte reads as (log entry 6). -/
def Memory.blank : Byte := 0x00#8

/-- `FB[i]` (00_scope.md R16). -/
def Memory.read : Memory → Nat → Byte
  | [], _ => Memory.blank
  | (a, b) :: m, i => if a = i then b else Memory.read m i

/-- `FB[i] <- v` (00_scope.md R16), keeping the canonical form. -/
def Memory.write : Memory → Nat → Byte → Memory
  | [], i, v => if v = Memory.blank then [] else [(i, v)]
  | (a, b) :: m, i, v =>
    if i < a then (if v = Memory.blank then (a, b) :: m else (i, v) :: (a, b) :: m)
    else if i = a then (if v = Memory.blank then m else (i, v) :: m)
    else (a, b) :: Memory.write m i v

/-- The memory whose byte `i` is `f i` for each `i` below `n`. -/
def Memory.tabulate (n : Nat) (f : Nat → Byte) : Memory :=
  (List.range n).filterMap (fun i => if f i = Memory.blank then none else some (i, f i))

/-- `for i in [0, n) step 1: FB[i] <- 0x00` (42_framebuffer.md R76, 41_init.md R68). -/
def Memory.zeroed (n : Nat) : Memory := Memory.tabulate n (fun _ => 0x00#8)

/-- The canonical form, within `size` bytes. -/
abbrev Memory.wf (size : Nat) (m : Memory) : Prop :=
  m.Pairwise (fun c d => c.1 < d.1) ∧ ∀ c ∈ m, c.2 ≠ Memory.blank ∧ c.1 < size

/-- `[FB[0], ..., FB[FB_SIZE - 1]]`, ascending (20_memory.md R38). -/
def Memory.frame (size : Nat) (m : Memory) : List Byte := (List.range size).map (Memory.read m)

/-! ## Pixels (42_framebuffer.md R75) -/

/-- A byte with the bits of `mask` set or cleared, as the color says. -/
def paint (c : Bool) (mask old : Byte) : Byte := if c then old ||| mask else old &&& ~~~mask

/-- `SetPixel(x, y, c)` of R75. -/
def setPixel (cfg : Config) (x y : Int) (c : Bool) (m : Memory) : Memory :=
  if inBounds cfg x y then
    let i := pixelByte cfg x y
    Memory.write m i (paint c (1#8 <<< pixelBit y) (Memory.read m i))
  else m

/-- The bits of byte `i` whose pixels are in the set `p` (20_memory.md R35). -/
def maskOf (cfg : Config) (p : Int → Int → Bool) (i : Nat) : Byte :=
  (List.range 8).foldl
    (fun acc b => if p (pixelOf cfg i b).1 (pixelOf cfg i b).2 then acc ||| 1#8 <<< b else acc) 0#8

/-- Every in-bounds pixel of the set `p` gets color `c`, every other bit stays (43_shapes.md R88; log
entry 11). -/
def paintSet (cfg : Config) (p : Int → Int → Bool) (c : Bool) (m : Memory) : Memory :=
  Memory.tabulate cfg.fbSize (fun i => paint c (maskOf cfg p i) (Memory.read m i))

/-- `SetPixel` over a list of pixels in order: the spec's loops (R80, R83), which no meaning runs. -/
def setPixels (cfg : Config) (c : Bool) (ps : List (Int × Int)) (m : Memory) : Memory :=
  ps.foldl (fun acc p => setPixel cfg p.1 p.2 c acc) m

/-- The pixel is lit (20_memory.md R32, R33). -/
def lit (cfg : Config) (m : Memory) (x y : Int) : Bool :=
  (Memory.read m (pixelByte cfg x y)).getLsbD (pixelBit y)

/-- The host's read of the whole buffer (10_state.md R30): defined between operations while READY. -/
def State.hostRead (s : State) : Except Refusal (List Byte) :=
  if s.hung then .error .frameUnreadable
  else match s.ctrl with
    | .ready => .ok (Memory.frame s.cfg.fbSize s.fb)
    | .uninitialized => .error .frameUnreadable

/-! ## How an operation ends -/

/-- `raise Fault(code)`: fault entry (60_exceptions.md R94). A next state; there is no return from it
(R101). -/
def raiseFault (code : FaultCode) (s : State) : Host.Outcome State Fault Refusal :=
  .next { s with fault := code, last := .faulted }

/-- Completion with a status (60_exceptions.md R91, R92). -/
def complete (r : Status) (s : State) : State := { s with last := r }

/-- The check every framebuffer operation makes first (42_framebuffer.md R74). -/
def ifReady (s : State) (k : Host.Outcome State Fault Refusal) : Host.Outcome State Fault Refusal :=
  match s.ctrl with
  | .ready => k
  | .uninitialized => raiseFault .uninit s

/-! ## The bus (40_transport.md R59, R60) -/

/-- How the bus environment treats the next bus write: an input it has given, else a free draw. -/
def drawReply (s : State) : BusReply × State :=
  match s.bus with
  | r :: rest => (r, { s with bus := rest })
  | [] => (Config.freeBusReply s.draws, { s with draws := s.draws + 1 })

/-- The state once a bus write has been treated so: logged with its answer (R60), or in progress for ever
with nothing appended (60_exceptions.md R102). -/
def afterReply (addr : BusAddr) (bytes : List Byte) (hold : Bool) (r : BusReply) (s : State) : State :=
  match r with
  | some a => { s with log := s.log ++ [.write addr bytes hold a] }
  | none => { s with hung := true }

/-- `BusWrite(addr, bytes, hold) -> r` (R59). -/
def busWrite (addr : BusAddr) (bytes : List Byte) (hold : Bool) (s : State) : BusReply × State :=
  ((drawReply s).1, afterReply addr bytes hold (drawReply s).1 (drawReply s).2)

/-- `Sleep(ms)` (00_scope.md R16). -/
def sleepFor (ms : Nat) (s : State) : State := { s with log := s.log ++ [.sleep ms] }

/-- The next transfer, attempted only after an ACK: no answer or a FAIL ends the framing (R62, R63). -/
def andThen (r : BusReply × State) (k : State → BusReply × State) : BusReply × State :=
  match r.1 with
  | some .ack => k r.2
  | some .fail => r
  | none => r

/-- `send_command(b)` (R61). -/
def sendCommand (b : Byte) (s : State) : BusReply × State :=
  busWrite s.cfg.devAddr [s.cfg.ctrlCmd, b] false s

/-- `send_data(bytes, n)` (R62). -/
def sendData (bytes : List Byte) (s : State) : BusReply × State :=
  andThen (busWrite s.cfg.devAddr [s.cfg.ctrlData] true s) (busWrite s.cfg.devAddr bytes false)

/-- The command loop of INIT: stop at the first byte that is not acknowledged (41_init.md R68, R70). -/
def sendCommands : List Byte → State → BusReply × State
  | [], s => (some .ack, s)
  | b :: bs, s => andThen (sendCommand b s) (sendCommands bs)

/-- The end of CMD and of SHOW: the status of the transfer, or nothing where it hangs (60_exceptions.md
R98, R102). -/
def endTransfer (r : BusReply × State) : State :=
  match r.1 with
  | some a => complete (statusOf a) r.2
  | none => r.2

/-! ## The host's next event -/

/-- The reset event (70_reset_and_hazards.md R107): every piece of state as 10_state.md R29 says, FB
unspecified (log entry 9); the instance's parameters and the inputs still to come stay. -/
def restart (s : State) (rest : List HostEvent) : State :=
  { State.reset with
    cfg := s.cfg
    fb := Memory.tabulate s.cfg.fbSize (Config.freeFbByte s.draws)
    host := rest
    bus := s.bus
    draws := s.draws + 1 }

/-- A descriptor reaches a block that takes it: the decoder's fault, or the operation (30_encoding.md R50,
60_exceptions.md R91, R96). -/
def submit (run : Instr → State → Host.Outcome State Fault Refusal) (d : Descriptor) (s : State) :
    Host.Outcome State Fault Refusal :=
  match decode d with
  | .error e => raiseFault (decodeFaultCode e) s
  | .ok i => run i s

/-- What the block does next. A reset takes effect in any condition; a hung block takes nothing else (R102);
with no event the block is idle and nothing changes (log entry 8); a faulted block refuses a submission
before any check (R95, R96). -/
def respond (run : Instr → State → Host.Outcome State Fault Refusal) (s : State) :
    Host.Outcome State Fault Refusal :=
  match s.host with
  | .reset :: rest => .next (restart s rest)
  | [] => if s.hung then .fault .busHung else .next s
  | .submit d :: rest =>
    if s.hung then .fault .busHung
    else if s.fault ≠ .none then .refused .blockFaulted
    else submit run d { s with host := rest }

end Sys2Proof.Machine
end

