-- ==== Sys2Proof/Machine/Flush.lean ====
section
/-! DEFINITION. SHOW (44_flush.md R89, R90). -/

namespace Sys2Proof.Machine

/-- SHOW (R89): the frame is taken from FB when SHOW starts. -/
def execShow (s : State) : Host.Outcome State Fault Refusal :=
  ifReady s (.next (endTransfer (sendData (Memory.frame s.cfg.fbSize s.fb) s)))

end Sys2Proof.Machine
end

