-- ==== Sys2Proof/Machine/Framebuffer.lean ====
section
/-! DEFINITION. CLEAR and PIXEL (42_framebuffer.md R76, R77). -/

namespace Sys2Proof.Machine

/-- CLEAR (R76). -/
def execClear (s : State) : Host.Outcome State Fault Refusal :=
  ifReady s (.next (complete .ok { s with fb := Memory.zeroed s.cfg.fbSize }))

/-- PIXEL x, y, c (R77). No range check: PIXEL computes no coordinate (60_exceptions.md R97). -/
def execPixel (x y : Int) (c : Bool) (s : State) : Host.Outcome State Fault Refusal :=
  ifReady s (.next (complete .ok { s with fb := setPixel s.cfg x y c s.fb }))

end Sys2Proof.Machine
end

