-- ==== Sys2Proof/Machine/Init.lean ====
section
/-! DEFINITION. INIT (41_init.md R68 to R73). -/

namespace Sys2Proof.Machine

/-- The end of INIT (R68, R70): READY with a zeroed buffer; or UNINITIALIZED with the buffer as it was; or
nothing more, where a byte's write hangs. -/
def endInit (r : BusReply × State) : State :=
  match r.1 with
  | some .ack => complete .ok { r.2 with fb := Memory.zeroed r.2.cfg.fbSize, ctrl := .ready }
  | some .fail => complete .transportFailure { r.2 with ctrl := .uninitialized }
  | none => r.2

/-- INIT (R68): the settle delay first (R69), then the command bytes. -/
def execInit (s : State) : Host.Outcome State Fault Refusal :=
  .next (endInit (sendCommands s.cfg.initSeq (sleepFor s.cfg.settleMs s)))

end Sys2Proof.Machine
end

