-- ==== Sys2Proof/Machine/Shapes.lean ====
section
/-! DEFINITION. RECT, FILL, DASHED, DOTTED and BORDER (43_shapes.md). -/

namespace Sys2Proof.Machine

/-- `Outline(x, y, w, h, c, s)` of R80 behind the range check of 60_exceptions.md R97, and completion. -/
def drawOutline (stride : Nat) (x y w h : Int) (c : Bool) (s : State) : Host.Outcome State Fault Refusal :=
  if outlineInRange x y w h then
    .next (complete .ok { s with fb := paintSet s.cfg (inOutline x y w h stride) c s.fb })
  else raiseFault .range s

/-- RECT (R81). -/
def execRect (x y w h : Int) (c : Bool) (s : State) : Host.Outcome State Fault Refusal :=
  ifReady s (drawOutline 1 x y w h c s)

/-- FILL (R83). -/
def execFill (x y w h : Int) (c : Bool) (s : State) : Host.Outcome State Fault Refusal :=
  ifReady s
    (if fillInRange x y w h then
      .next (complete .ok { s with fb := paintSet s.cfg (inRegion x y w h) c s.fb })
    else raiseFault .range s)

/-- DASHED (R85). -/
def execDashed (x y w h : Int) (c : Bool) (s : State) : Host.Outcome State Fault Refusal :=
  ifReady s (drawOutline 2 x y w h c s)

/-- DOTTED (R86). -/
def execDotted (x y w h : Int) (c : Bool) (s : State) : Host.Outcome State Fault Refusal :=
  ifReady s (drawOutline 3 x y w h c s)

/-- BORDER (R87): the style is checked after READY and before the range (60_exceptions.md R96). -/
def execBorder (style : Fin 8) (x y w h : Int) (c : Bool) (s : State) : Host.Outcome State Fault Refusal :=
  ifReady s
    (if 3 ≤ style.val then raiseFault .style s
    else drawOutline (style.val + 1) x y w h c s)

end Sys2Proof.Machine
end

