-- ==== Sys2Proof/Machine/Transport.lean ====
section
/-! DEFINITION. CMD (40_transport.md R66). -/

namespace Sys2Proof.Machine

/-- CMD b (R66). -/
def execCmd (b : Byte) (s : State) : Host.Outcome State Fault Refusal :=
  .next (endTransfer (sendCommand b s))

end Sys2Proof.Machine
end

