-- ==== Sys2Proof/Machine/Dispatch.lean ====
section
/-! DEFINITION. One arm per operation, each one call of its meaning. -/

namespace Sys2Proof.Machine

def exec (i : Instr) (s : State) : Host.Outcome State Fault Refusal :=
  match i with
  | .init => Sys2Proof.Machine.execInit s
  | .clear => Sys2Proof.Machine.execClear s
  | .showFrame => Sys2Proof.Machine.execShow s
  | .cmd b => Sys2Proof.Machine.execCmd b s
  | .pixel x y c => Sys2Proof.Machine.execPixel x y c s
  | .rect x y w h c => Sys2Proof.Machine.execRect x y w h c s
  | .fill x y w h c => Sys2Proof.Machine.execFill x y w h c s
  | .dashed x y w h c => Sys2Proof.Machine.execDashed x y w h c s
  | .dotted x y w h c => Sys2Proof.Machine.execDotted x y w h c s
  | .border st x y w h c => Sys2Proof.Machine.execBorder st x y w h c s

end Sys2Proof.Machine
end

