-- ==== Sys2Proof/Machine/Step.lean ====
section
/-! DEFINITION. One step: what the block does with the host's next event. -/

namespace Sys2Proof.Machine

/-- One step (60_exceptions.md R91). -/
def step (s : State) : Host.Outcome State Fault Refusal := respond exec s

/-- The host submits the descriptor of a table word next (log entry 10). -/
def State.withFetchWord (s : State) (nbits w : Nat) : State :=
  { s with host := .submit (tableDescriptor nbits w) :: s.host }

end Sys2Proof.Machine
end

