-- ==== Sys2Proof/Machine/Assembler.lean ====
section
/-! DEFINITION. The assembler syntax and the pseudo-operations (30_encoding.md R57, R58). Host-side only: no
step reads this file. -/

namespace Sys2Proof.Machine

/-- An operation that has a descriptor, else nothing: an operand outside its range does not assemble (R57). -/
def assembled (i : Instr) : Option Instr := if i.wf then some i else none

/-- `c` is 0 or 1 (R57). -/
def colorOperand : Int → Option Bool
  | 0 => some false
  | 1 => some true
  | _ => none

/-- `s` is 0 to 7 (R57). -/
def styleOperand (v : Int) : Option (Fin 8) :=
  if 0 ≤ v then (if h : v.toNat < 8 then some ⟨v.toNat, h⟩ else none) else none

/-- `b` is 0 to 255 (R57). -/
def byteOperand (v : Int) : Option Byte :=
  if 0 ≤ v && v ≤ 255 then some (BitVec.ofInt 8 v) else none

/-- An operation from its mnemonic and its operands in order (R57). -/
def assemble (mnemonic : String) (operands : List Int) : Option Instr :=
  match mnemonic, operands with
  | "INIT", [] => some .init
  | "CLEAR", [] => some .clear
  | "SHOW", [] => some .showFrame
  | "CMD", [b] => (byteOperand b).map .cmd
  | "PIXEL", [x, y, c] => (colorOperand c).bind (fun c => assembled (.pixel x y c))
  | "RECT", [x, y, w, h, c] => (colorOperand c).bind (fun c => assembled (.rect x y w h c))
  | "FILL", [x, y, w, h, c] => (colorOperand c).bind (fun c => assembled (.fill x y w h c))
  | "DASHED", [x, y, w, h, c] => (colorOperand c).bind (fun c => assembled (.dashed x y w h c))
  | "DOTTED", [x, y, w, h, c] => (colorOperand c).bind (fun c => assembled (.dotted x y w h c))
  | "BORDER", [s, x, y, w, h, c] =>
    (styleOperand s).bind (fun s => (colorOperand c).bind (fun c => assembled (.border s x y w h c)))
  | _, _ => none

/-- A pseudo-operation from its name and its operands in order (R58). -/
def assemblePseudo (name : String) (operands : List Int) : Option Pseudo :=
  match name, operands with
  | "SETPX", [x, y] => some (.setPx x y)
  | "CLRPX", [x, y] => some (.clrPx x y)
  | "FILLSCREEN", [c] => (colorOperand c).map .fillScreen
  | "FRAME", [s, bx, bY, bw, bh, qx, qy, qw, qh] =>
    (styleOperand s).map (fun s => .frame s bx bY bw bh qx qy qw qh)
  | _, _ => none

/-- The expansion of a pseudo-operation (R58). -/
def expand (cfg : Config) : Pseudo → List Instr
  | .setPx x y => [.pixel x y true]
  | .clrPx x y => [.pixel x y false]
  | .fillScreen c => [.fill 0 0 cfg.width cfg.height c]
  | .frame s bx bY bw bh qx qy qw qh =>
    [.clear, .border s bx bY bw bh true, .fill qx qy qw qh true, .showFrame]

/-! ## The text of a line (R57; log entry 17) -/

/-- The value of a digit in a base up to 16. -/
def digitValue (base : Nat) (c : Char) : Option Nat :=
  let v :=
    if '0' ≤ c && c ≤ '9' then c.toNat - 48
    else if 'a' ≤ c && c ≤ 'f' then c.toNat - 87
    else if 'A' ≤ c && c ≤ 'F' then c.toNat - 55
    else base
  if v < base then some v else none

/-- A run of digits read on from a value. -/
def digitsFrom (base : Nat) : Nat → List Char → Option Nat
  | acc, [] => some acc
  | acc, c :: cs =>
    match digitValue base c with
    | none => none
    | some v => digitsFrom base (acc * base + v) cs

/-- A non-empty run of digits. -/
def readDigits (base : Nat) : List Char → Option Nat
  | [] => none
  | c :: cs => digitsFrom base 0 (c :: cs)

/-- An integer: decimal, possibly negative, or hexadecimal `0x..` (R57). -/
def readInteger : List Char → Option Int
  | '0' :: 'x' :: cs => (readDigits 16 cs).map (fun n => (n : Int))
  | '-' :: cs => (readDigits 10 cs).map (fun n => -(n : Int))
  | cs => (readDigits 10 cs).map (fun n => (n : Int))

/-- Without the spaces at either end. -/
def trimmed (cs : List Char) : List Char :=
  ((cs.dropWhile (· == ' ')).reverse.dropWhile (· == ' ')).reverse

/-- The pieces between commas. -/
def splitCommas : List Char → List (List Char)
  | [] => [[]]
  | ',' :: cs => [] :: splitCommas cs
  | c :: cs =>
    match splitCommas cs with
    | [] => [[c]]
    | p :: ps => (c :: p) :: ps

/-- The operands after a mnemonic: none, or integers separated by commas. -/
def readOperandText (cs : List Char) : Option (List Int) :=
  if trimmed cs = [] then some []
  else (splitCommas cs).mapM (fun p => readInteger (trimmed p))

/-- The operations one line of text stands for: one operation, or a pseudo-operation's expansion, every
operand of which must assemble (R57, R58). -/
def assembleLine (cfg : Config) (line : String) : Option (List Instr) :=
  let cs := trimmed line.toList
  let mnemonic := String.ofList (cs.takeWhile (· != ' '))
  (readOperandText (cs.dropWhile (· != ' '))).bind (fun ops =>
    match assemble mnemonic ops with
    | some i => some [i]
    | none => (assemblePseudo mnemonic ops).bind (fun p => (expand cfg p).mapM assembled))

/-- The descriptors one line of text stands for. -/
def descriptorsOfLine (cfg : Config) (line : String) : Option (List Descriptor) :=
  (assembleLine cfg line).map (fun is => is.map encode)

end Sys2Proof.Machine
end

