-- ==== Sys2Proof/Safety.lean ====
section
/-! DEFINITION. The terms claims are stated in: the invariants of the block, a normal end, and what two
states may differ in. -/

namespace Sys2Proof.Machine

/-- The invariant of the block: the parameters meet their constraints (00_scope.md R7, R10); FB is in its
canonical form and holds nothing past FB_SIZE (10_state.md R19); LAST says FAULTED exactly when FAULT is set
(60_exceptions.md R94, R95); a hung block has not faulted (R91). -/
abbrev State.Inv (s : State) : Prop :=
  s.cfg.wf ∧ Memory.wf s.cfg.fbSize s.fb ∧ (s.last = .faulted ↔ s.fault ≠ .none) ∧
    (s.hung = true → s.fault = .none)

/-- A normal end of a run: neither faulted (60_exceptions.md R95) nor hung (R102). -/
abbrev State.NormalEnd (s : State) : Prop := s.fault = .none ∧ s.hung = false

/-- The LOG entries the block may append: INIT's sleep (41_init.md R69), a command write (40_transport.md
R61), a data control write or a whole frame (R62, 44_flush.md R89); every write at DEV_ADDR (20_memory.md
R39). -/
def EventShape (c : Config) : BusEvent → Prop
  | .sleep ms => ms = c.settleMs
  | .write addr bytes hold _ =>
    addr = c.devAddr ∧
      ((hold = false ∧ ∃ b, bytes = [c.ctrlCmd, b]) ∨ (hold = true ∧ bytes = [c.ctrlData]) ∨
        (hold = false ∧ bytes.length = c.fbSize))

/-- Every LOG entry has one of those shapes. -/
def State.LogShape (s : State) : Prop := ∀ e ∈ s.log, EventShape s.cfg e

/-- An acknowledged data control write is followed at once by a whole frame, or nothing has followed it
because the frame's write hangs (40_transport.md R62, 90_conflicts.md C2). -/
def State.FrameFollowsControl (s : State) : Prop :=
  ∀ pre post, s.log = pre ++ .write s.cfg.devAddr [s.cfg.ctrlData] true .ack :: post →
    (post = [] ∧ s.hung = true) ∨
      ∃ frame r rest, post = .write s.cfg.devAddr frame false r :: rest ∧ frame.length = s.cfg.fbSize

/-- The two states agree in everything but FB. -/
def SameButFb (s t : State) : Prop := t = { s with fb := t.fb }

/-- The host's next event is the submission of `d` to a block that takes it: neither hung nor faulted
(60_exceptions.md R91). -/
abbrev Submits (s : State) (d : Descriptor) (rest : List HostEvent) : Prop :=
  s.hung = false ∧ s.fault = .none ∧ s.host = .submit d :: rest

/-- What a submission that faults leaves: FAULT and LAST, and the event is taken (60_exceptions.md R94). -/
def faultedBy (s : State) (rest : List HostEvent) (code : FaultCode) : State :=
  { s with host := rest, fault := code, last := .faulted }

/-- `Top ∪ Bottom ∪ Left ∪ Right` of 43_shapes.md R80, as the rule writes it. -/
def OutlineSet (x y w h : Int) (s : Nat) (px py : Int) : Prop :=
  (∃ i, 0 ≤ i ∧ i < w ∧ i % s = 0 ∧ px = x + i ∧ (py = y ∨ py = y + h - 1)) ∨
  (∃ j, 0 ≤ j ∧ j < h ∧ j % s = 0 ∧ py = y + j ∧ (px = x ∨ px = x + w - 1))

/-- The region of FILL (43_shapes.md R83). -/
def RegionSet (x y w h : Int) (px py : Int) : Prop := x ≤ px ∧ px < x + w ∧ y ≤ py ∧ py < y + h

/-- A drawing operation completed with OK: only FB and LAST are written, and bit `b` of byte `a`, which is
pixel `(a mod WIDTH, 8 * (a div WIDTH) + b)` (20_memory.md R35), has the color if that pixel is in the set
and is unchanged if it is not. No other byte is touched. -/
def Paints (s t : State) (p : Int → Int → Prop) (c : Bool) : Prop :=
  t = { s with fb := t.fb, last := .ok } ∧
  (∀ a b : Nat, a < s.cfg.fbSize → b < 8 →
    (p (a % s.cfg.width : Nat) (8 * (a / s.cfg.width) + b : Nat) → (Memory.read t.fb a).getLsbD b = c) ∧
    (¬ p (a % s.cfg.width : Nat) (8 * (a / s.cfg.width) + b : Nat) →
      (Memory.read t.fb a).getLsbD b = (Memory.read s.fb a).getLsbD b)) ∧
  ∀ a : Nat, s.cfg.fbSize ≤ a → Memory.read t.fb a = Memory.read s.fb a

/-- The number of lit pixels of the display. -/
def litCount (cfg : Config) (m : Memory) : Nat :=
  ((List.range cfg.height).map (fun y =>
    (List.range cfg.width).countP (fun x => lit cfg m (x : Int) (y : Int)))).sum

/-- The rectangle lies wholly inside the display. -/
abbrev RectInside (cfg : Config) (x y w h : Int) : Prop :=
  0 ≤ x ∧ x + w ≤ cfg.width ∧ 0 ≤ y ∧ y + h ≤ cfg.height

/-- `[-2^31, 2^31 - 1]` (60_exceptions.md R97). -/
abbrev InRange32 (v : Int) : Prop := -2 ^ 31 ≤ v ∧ v ≤ 2 ^ 31 - 1

/-- `2*ceil(w/s) + 2*ceil(h/s) - k` with `k = 1 + [(h-1) mod s = 0] + [(w-1) mod s = 0] + [both]`: the count
law of 43_shapes.md R85 and R86. -/
def outlineCount (w h s : Nat) : Nat :=
  2 * ((w + s - 1) / s) + 2 * ((h + s - 1) / s) -
    (1 + (if (h - 1) % s = 0 then 1 else 0) + (if (w - 1) % s = 0 then 1 else 0) +
      (if (h - 1) % s = 0 ∧ (w - 1) % s = 0 then 1 else 0))

/-- `c` is written 1 for true and 0 for false (10_state.md R20, 30_encoding.md R57). -/
def colorNumber (c : Bool) : Int := if c then 1 else 0

/-- The ten assembler forms of 30_encoding.md R57: the mnemonic, the operands in the order the rule gives
them, and the ranges they keep (those of `b` and `s` are the ranges of the operation's own fields). -/
def AssemblerForm (mnemonic : String) (operands : List Int) : Instr → Prop
  | .init => mnemonic = "INIT" ∧ operands = []
  | .clear => mnemonic = "CLEAR" ∧ operands = []
  | .showFrame => mnemonic = "SHOW" ∧ operands = []
  | .cmd b => mnemonic = "CMD" ∧ operands = [(b.toNat : Int)]
  | .pixel x y c => mnemonic = "PIXEL" ∧ operands = [x, y, colorNumber c] ∧ InRange32 x ∧ InRange32 y
  | .rect x y w h c =>
    mnemonic = "RECT" ∧ operands = [x, y, w, h, colorNumber c] ∧
      InRange32 x ∧ InRange32 y ∧ InRange32 w ∧ InRange32 h
  | .fill x y w h c =>
    mnemonic = "FILL" ∧ operands = [x, y, w, h, colorNumber c] ∧
      InRange32 x ∧ InRange32 y ∧ InRange32 w ∧ InRange32 h
  | .dashed x y w h c =>
    mnemonic = "DASHED" ∧ operands = [x, y, w, h, colorNumber c] ∧
      InRange32 x ∧ InRange32 y ∧ InRange32 w ∧ InRange32 h
  | .dotted x y w h c =>
    mnemonic = "DOTTED" ∧ operands = [x, y, w, h, colorNumber c] ∧
      InRange32 x ∧ InRange32 y ∧ InRange32 w ∧ InRange32 h
  | .border s x y w h c =>
    mnemonic = "BORDER" ∧ operands = [(s.val : Int), x, y, w, h, colorNumber c] ∧
      InRange32 x ∧ InRange32 y ∧ InRange32 w ∧ InRange32 h

/-- The state once the environment has drawn `n` answers, whatever their source (log entry 4). -/
def afterReplies : Nat → State → State
  | 0, s => s
  | n + 1, s => afterReplies n (drawReply s).2

/-- The answer of the bus write that comes after `k` others, whatever its source (log entry 4). -/
def replyAt (s : State) (k : Nat) : BusReply := (drawReply (afterReplies k s)).1

/-- `s` with `n` answers drawn, and everything else as it was. -/
def withRepliesDrawn (n : Nat) (s : State) : State :=
  { s with bus := (afterReplies n s).bus, draws := (afterReplies n s).draws }

/-- The LOG entries of acknowledged command writes (40_transport.md R61). -/
def acknowledged (c : Config) (bs : List Byte) : List BusEvent :=
  bs.map (fun b => .write c.devAddr [c.ctrlCmd, b] false .ack)

end Sys2Proof.Machine
end

