-- ==== Sys2Proof/Certificates/Slice0/Obligations.lean ====
section
/-! DEFINITION. What the model claims, statement by statement. -/

open Sys2Proof Sys2Proof.Machine

/-! ## Encoding -/

/-- 30_encoding.md R46 to R50: decoding the descriptor of any operation whose operands fit gives it back. -/
def Obligations.DecodeAfterEncode : Prop :=
  ∀ i : Instr, i.wf = true → decode (encode i) = .ok i

/-- 30_encoding.md R50, R55: a descriptor that decodes is the one descriptor of its operation, and the
operation's operands fit. -/
def Obligations.EncodeAfterDecode : Prop :=
  ∀ (d : Descriptor) (i : Instr), decode d = .ok i → encode i = d ∧ i.wf = true

/-- 30_encoding.md R51. -/
def Obligations.UnassignedOpcodesFault : Prop :=
  (∀ (s : State) (d0 : Word) (ds : List Word) (rest : List HostEvent), Submits s (d0 :: ds) rest →
    ((fieldOpc d0).toNat = 0 ∨ (0x05 ≤ (fieldOpc d0).toNat ∧ (fieldOpc d0).toNat ≤ 0x0F) ∨
      0x16 ≤ (fieldOpc d0).toNat) →
    step s = .next (faultedBy s rest .illegalOp)) ∧
  (∀ (d0 : Word) (ds : List Word), decode (d0 :: ds) = .error .illegalOp →
    ((fieldOpc d0).toNat = 0 ∨ (0x05 ≤ (fieldOpc d0).toNat ∧ (fieldOpc d0).toNat ≤ 0x0F) ∨
      0x16 ≤ (fieldOpc d0).toNat)) ∧
  ((List.range 256).countP (fun n => n == 0 || (5 ≤ n && n ≤ 15) || 22 ≤ n)) = 246

/-- 30_encoding.md R53, with the lengths of R49. -/
def Obligations.WrongWordCountFaults : Prop :=
  (∀ (s : State) (d0 : Word) (ds : List Word) (rest : List HostEvent), Submits s (d0 :: ds) rest →
    ((1 ≤ (fieldOpc d0).toNat ∧ (fieldOpc d0).toNat ≤ 4 ∧ ds.length ≠ 0) ∨
      ((fieldOpc d0).toNat = 0x10 ∧ ds.length ≠ 2) ∨
      (0x11 ≤ (fieldOpc d0).toNat ∧ (fieldOpc d0).toNat ≤ 0x15 ∧ ds.length ≠ 4)) →
    step s = .next (faultedBy s rest .length)) ∧
  (∀ (s : State) (rest : List HostEvent), Submits s [] rest → step s = .next (faultedBy s rest .length))

/-- 30_encoding.md R52: of a descriptor with an assigned opcode and the right length, a 1 in a reserved bit
or in a field its opcode does not use faults, and any other decodes. -/
def Obligations.ReservedAndUnusedBitsFault : Prop :=
  ∀ (s : State) (d0 : Word) (ds : List Word) (rest : List HostEvent), Submits s (d0 :: ds) rest →
    ((1 ≤ (fieldOpc d0).toNat ∧ (fieldOpc d0).toNat ≤ 4 ∧ ds.length = 0) ∨
      ((fieldOpc d0).toNat = 0x10 ∧ ds.length = 2) ∨
      (0x11 ≤ (fieldOpc d0).toNat ∧ (fieldOpc d0).toNat ≤ 0x15 ∧ ds.length = 4)) →
    ((d0.extractLsb' 12 4 ≠ 0#4 ∨ d0.extractLsb' 24 8 ≠ 0#8 ∨
        (fieldColor d0 = true ∧ (fieldOpc d0).toNat ≤ 4) ∨
        (fieldStyle d0 ≠ 0#3 ∧ (fieldOpc d0).toNat ≠ 0x15) ∨
        (fieldCmdb d0 ≠ 0#8 ∧ (fieldOpc d0).toNat ≠ 4)) →
      step s = .next (faultedBy s rest .reserved)) ∧
    ((d0.extractLsb' 12 4 = 0#4 ∧ d0.extractLsb' 24 8 = 0#8 ∧
        (fieldColor d0 = false ∨ 4 < (fieldOpc d0).toNat) ∧
        (fieldStyle d0 = 0#3 ∨ (fieldOpc d0).toNat = 0x15) ∧
        (fieldCmdb d0 = 0#8 ∨ (fieldOpc d0).toNat = 4)) →
      ∃ i, decode (d0 :: ds) = .ok i)

/-- 30_encoding.md R47 to R49: words written out from the encodings. -/
def Obligations.WrittenWordsDecode : Prop :=
  decode [0x00000001#32] = .ok .init ∧
  decode [0x00000002#32] = .ok .clear ∧
  decode [0x00000003#32] = .ok .showFrame ∧
  decode [0x00810004#32] = .ok (.cmd 0x81#8) ∧
  decode [0x00000110#32, 0xFFFFFFFF#32, 0x00000005#32] = .ok (.pixel (-1) 5 true) ∧
  decode [0x00000011#32, 1#32, 2#32, 3#32, 0x80000000#32] = .ok (.rect 1 2 3 (-2147483648) false) ∧
  decode [0x00000112#32, 0x0000003C#32, 0x0000001C#32, 8#32, 8#32] = .ok (.fill 60 28 8 8 true) ∧
  decode [0x00000113#32, 0#32, 0#32, 4#32, 4#32] = .ok (.dashed 0 0 4 4 true) ∧
  decode [0x00000014#32, 0#32, 8#32, 7#32, 7#32] = .ok (.dotted 0 8 7 7 false) ∧
  decode [0x00000515#32, 0#32, 0#32, 4#32, 0x7FFFFFFF#32] = .ok (.border 2 0 0 4 2147483647 true)

/-- 30_encoding.md R56: the bytes of a stored descriptor, and that they read back. -/
def Obligations.StoredDescriptorBytes : Prop :=
  ∀ d : Descriptor,
    (descriptorBytes d).length = 4 * d.length ∧
    (∀ k j : Nat, ∀ hk : k < d.length, j < 4 →
      (descriptorBytes d)[4 * k + j]? = some (d[k].extractLsb' (8 * j) 8)) ∧
    wordsOfBytes (descriptorBytes d) = some d

/-- 30_encoding.md R57: a mnemonic and integer operands assemble to an operation exactly when they are that
operation's form, operands in their order and in their ranges; so nothing else assembles. What assembles has a
descriptor that decodes to it, and every operation whose operands fit has a form. -/
def Obligations.AssemblerIsSoundAndComplete : Prop :=
  (∀ (m : String) (ops : List Int) (i : Instr), assemble m ops = some i ↔ AssemblerForm m ops i) ∧
  (∀ (m : String) (ops : List Int) (i : Instr), assemble m ops = some i → decode (encode i) = .ok i) ∧
  ∀ i : Instr, i.wf = true → ∃ m ops, assemble m ops = some i

/-- 30_encoding.md R58: the four expansions. -/
def Obligations.PseudoOperationsExpand : Prop :=
  (∀ (cfg : Config) (x y : Int), expand cfg (.setPx x y) = [.pixel x y true]) ∧
  (∀ (cfg : Config) (x y : Int), expand cfg (.clrPx x y) = [.pixel x y false]) ∧
  (∀ (cfg : Config) (c : Bool), expand cfg (.fillScreen c) = [.fill 0 0 cfg.width cfg.height c]) ∧
  ∀ (cfg : Config) (s : Fin 8) (bx bY bw bh qx qy qw qh : Int),
    expand cfg (.frame s bx bY bw bh qx qy qw qh) =
      [.clear, .border s bx bY bw bh true, .fill qx qy qw qh true, .showFrame]

/-! ## The step, status, faults and reset -/

/-- 60_exceptions.md R91: a submitted descriptor that decodes runs its operation. -/
def Obligations.StepRunsTheDecodedOperation : Prop :=
  ∀ (s : State) (d : Descriptor) (rest : List HostEvent) (i : Instr),
    Submits s d rest → decode d = .ok i → step s = exec i { s with host := rest }

/-- 30_encoding.md R50, 60_exceptions.md R94: a submitted descriptor that does not decode faults. -/
def Obligations.StepTakesTheDecodeFault : Prop :=
  ∀ (s : State) (d : Descriptor) (rest : List HostEvent) (e : DecodeFault),
    Submits s d rest → decode d = .error e → step s = .next (faultedBy s rest (decodeFaultCode e))

/-- The model's own placing of a table word (log entry 10): the very next step runs it. -/
def Obligations.TableWordRunsNext : Prop :=
  ∀ (s : State) (nbits w : Nat) (i : Instr), s.hung = false → s.fault = .none →
    decodeTableWord nbits w = some i → step (s.withFetchWord nbits w) = exec i s

/-- The model's own treatment of an absent event (log entry 8): an idle block keeps its whole state. -/
def Obligations.IdleBlockKeepsItsState : Prop :=
  ∀ s : State, s.host = [] → s.hung = false → step s = .next s

/-- 10_state.md R24 with the codes of R21, 60_exceptions.md R92 and R93. -/
def Obligations.StatusWordFields : Prop :=
  ∀ s : State,
    (s.status.extractLsb' 0 2).toNat =
      (match s.last with | .ok => 0 | .transportFailure => 1 | .faulted => 2) ∧
    (s.status.getLsbD 2 = true ↔ s.ctrl = .ready) ∧
    s.status.getLsbD 3 = false ∧
    (s.status.extractLsb' 4 4).toNat =
      (match s.fault with
        | .none => 0 | .uninit => 1 | .illegalOp => 2 | .reserved => 3 | .length => 4 | .style => 5
        | .range => 6) ∧
    s.status.extractLsb' 8 24 = 0#24

/-- 10_state.md R29 gives CTRL, FAULT, LAST, LOG and STATUS after reset; FB is unspecified there and is not
spoken of. The last two clauses are the model's choice (DESIGN CHOICE, log entry 2): `State.reset` is an
instance of the default geometry of 00_scope.md R7, which gives a default and no reset value. -/
def Obligations.ResetValues : Prop :=
  State.reset.ctrl = .uninitialized ∧ State.reset.fault = .none ∧ State.reset.last = .ok ∧
  State.reset.log = [] ∧ State.reset.status = 0x00000000#32 ∧
  State.reset.cfg.width = 128 ∧ State.reset.cfg.height = 64

/-- 70_reset_and_hazards.md R107: a reset takes effect in any condition, a faulted or hung block's too, and
leaves the values of 10_state.md R29; the parameters stay (R27). -/
def Obligations.ResetEventRestartsTheBlock : Prop :=
  ∀ (s : State) (rest : List HostEvent), s.host = .reset :: rest →
    ∃ t, step s = .next t ∧ t.ctrl = .uninitialized ∧ t.fault = .none ∧ t.last = .ok ∧ t.log = [] ∧
      t.status = 0x00000000#32 ∧ t.hung = false ∧ t.cfg = s.cfg ∧ t.host = rest

/-- 60_exceptions.md R95. -/
def Obligations.FaultIsStickyUntilReset : Prop :=
  ∀ s : State, s.fault ≠ .none → s.hung = false →
    (∀ (d : Descriptor) (rest : List HostEvent), s.host = .submit d :: rest →
      step s = .refused .blockFaulted) ∧
    (∀ t, step s = .next t → t = s ∨ ∃ rest, s.host = .reset :: rest) ∧
    s.status.extractLsb' 4 4 ≠ 0#4

/-- 60_exceptions.md R94: a step that faults an unfaulted block takes the event and writes FAULT and LAST,
and nothing else. -/
def Obligations.FaultsArePrecise : Prop :=
  ∀ s t : State, s.fault = .none → step s = .next t → t.fault ≠ .none →
    ∃ d rest, s.host = .submit d :: rest ∧ t = faultedBy s rest t.fault

/-- 60_exceptions.md R91, R92, R102: every operation, in every state of a block that is not hung, completes,
faults or hangs. -/
def Obligations.EveryOperationCompletesFaultsOrHangs : Prop :=
  ∀ (i : Instr) (s : State), s.hung = false →
    ∃ t, exec i s = .next t ∧
      ((t.hung = false ∧ t.fault = s.fault ∧ (t.last = .ok ∨ t.last = .transportFailure)) ∨
       (t.fault ≠ .none ∧ t = { s with fault := t.fault, last := .faulted }) ∨
       (t.hung = true ∧ t.fault = s.fault ∧ t.last = s.last))

/-- 42_framebuffer.md R74: the eight framebuffer operations raise UNINIT before INIT; INIT and CMD are none
of them. -/
def Obligations.FramebufferOperationsFaultBeforeInit : Prop :=
  (∀ (s : State) (x y w h : Int) (c : Bool) (st : Fin 8), s.ctrl = .uninitialized →
    ∀ i ∈ [Instr.clear, .pixel x y c, .rect x y w h c, .fill x y w h c, .dashed x y w h c,
        .dotted x y w h c, .border st x y w h c, .showFrame],
      exec i s = .next { s with fault := .uninit, last := .faulted }) ∧
  ∀ (s : State) (b : Byte), ∀ i ∈ [Instr.init, .cmd b], ∃ t, exec i s = .next t ∧ t.fault = s.fault

/-- 60_exceptions.md R96, steps 5 to 7: UNINIT before STYLE before RANGE. -/
def Obligations.UninitBeforeStyleBeforeRange : Prop :=
  ∀ (s : State) (d : Descriptor) (rest : List HostEvent) (st : Fin 8) (x y w h : Int) (c : Bool),
    Submits s d rest → decode d = .ok (.border st x y w h c) →
    (s.ctrl = .uninitialized → step s = .next (faultedBy s rest .uninit)) ∧
    (s.ctrl = .ready → 3 ≤ st.val → step s = .next (faultedBy s rest .style)) ∧
    (s.ctrl = .ready → st.val < 3 → (0 < w ∨ 0 < h) →
      ¬ (InRange32 (x + w - 1) ∧ InRange32 (y + h - 1)) → step s = .next (faultedBy s rest .range))

/-- 60_exceptions.md R97: when RANGE is raised, and by which operations never. -/
def Obligations.RangeFaults : Prop :=
  (∀ (s : State) (x y w h : Int) (c : Bool) (st : Fin 8), s.ctrl = .ready → st.val < 3 →
    ¬ (InRange32 (x + w - 1) ∧ InRange32 (y + h - 1)) →
    ((0 < w ∨ 0 < h) →
      ∀ i ∈ [Instr.rect x y w h c, .dashed x y w h c, .dotted x y w h c, .border st x y w h c],
        exec i s = .next { s with fault := .range, last := .faulted }) ∧
    (0 < w → 0 < h → exec (.fill x y w h c) s = .next { s with fault := .range, last := .faulted })) ∧
  ∀ (s : State) (x y : Int) (c : Bool) (b : Byte), s.fault ≠ .range →
    ∀ i ∈ [Instr.pixel x y c, .clear, .showFrame, .init, .cmd b],
      ∃ t, exec i s = .next t ∧ t.fault ≠ .range

/-- 60_exceptions.md R97: passing the check means that no coordinate the loops of 43_shapes.md R80 and R83
compute leaves the 32-bit range. -/
def Obligations.RangeCheckBoundsEveryCoordinate : Prop :=
  ∀ (x y w h : Int) (n : Nat), InRange32 x → InRange32 y → InRange32 w → InRange32 h →
    1 ≤ n → n ≤ 3 →
    (((0 < w ∨ 0 < h) → InRange32 (x + w - 1) ∧ InRange32 (y + h - 1)) →
      ∀ p ∈ outlinePixels x y w h n, InRange32 p.1 ∧ InRange32 p.2) ∧
    ((0 < w → 0 < h → InRange32 (x + w - 1) ∧ InRange32 (y + h - 1)) →
      ∀ p ∈ fillPixels x y w h, InRange32 p.1 ∧ InRange32 p.2)

/-! ## Invariants and whole-machine rules -/

/-- The invariants hold right after reset (log entry 6 names the value FB has there). -/
def Obligations.ResetMeetsTheInvariants : Prop :=
  State.reset.Inv ∧ State.reset.LogShape ∧ State.reset.FrameFollowsControl

/-- Every step keeps the block's invariant (10_state.md R19, R27; 60_exceptions.md R91, R94). -/
def Obligations.StepKeepsTheBlockInvariant : Prop :=
  ∀ s t : State, s.Inv → step s = .next t → t.Inv

/-- Every step keeps the shape of LOG: every write at DEV_ADDR (20_memory.md R39), framed as
40_transport.md R61 and R62 say, every sleep SETTLE_MS (41_init.md R69). -/
def Obligations.StepKeepsTheLogShape : Prop :=
  ∀ s t : State, s.LogShape → step s = .next t → t.LogShape

/-- Every step keeps it that an acknowledged data control write is followed at once by a whole frame
(40_transport.md R62, 44_flush.md R89, 90_conflicts.md C2). -/
def Obligations.StepKeepsFrameAfterControl : Prop :=
  ∀ s t : State, s.FrameFollowsControl → step s = .next t → t.FrameFollowsControl

/-- 10_state.md R26: LOG is append-only between resets. -/
def Obligations.LogOnlyGrows : Prop :=
  ∀ s t : State, step s = .next t → (∃ rest, s.host = .reset :: rest) ∨ ∃ es, t.log = s.log ++ es

/-- 10_state.md R27: no step changes a parameter. -/
def Obligations.ParametersAreConstant : Prop :=
  ∀ s t : State, step s = .next t → t.cfg = s.cfg

/-- 10_state.md R22, 41_init.md R73: INIT alone changes CTRL, to READY where it completes with OK and to
UNINITIALIZED where it fails; where it hangs CTRL stays. -/
def Obligations.OnlyInitChangesCtrl : Prop :=
  (∀ (i : Instr) (s t : State), exec i s = .next t → i ≠ .init → t.ctrl = s.ctrl) ∧
  ∀ s t : State, s.hung = false → exec .init s = .next t →
    t.fault = s.fault ∧
    ((t.hung = false ∧ t.last = .ok ∧ t.ctrl = .ready) ∨
     (t.hung = false ∧ t.last = .transportFailure ∧ t.ctrl = .uninitialized) ∨
     (t.hung = true ∧ t.last = s.last ∧ t.ctrl = s.ctrl))

/-- 42_framebuffer.md R79: the seven drawing operations perform no bus traffic. -/
def Obligations.DrawingPerformsNoBusTraffic : Prop :=
  ∀ (s : State) (x y w h : Int) (c : Bool) (st : Fin 8),
    ∀ i ∈ [Instr.clear, .pixel x y c, .rect x y w h c, .fill x y w h c, .dashed x y w h c,
        .dotted x y w h c, .border st x y w h c],
      ∃ t, exec i s = .next t ∧ t.log = s.log ∧ t.bus = s.bus ∧ t.draws = s.draws ∧ t.hung = s.hung

/-- 10_state.md R29: before INIT no outcome depends on FB's bytes. Two blocks that differ in FB alone step
alike, and are the same state once READY; the host's read answers both alike. -/
def Obligations.FramebufferUnseenBeforeInit : Prop :=
  ∀ (s : State) (m : Memory), s.ctrl = .uninitialized →
    (∀ t, step s = .next t →
      ∃ t', step { s with fb := m } = .next t' ∧ SameButFb t t' ∧ (t.ctrl = .ready → t' = t)) ∧
    (∀ r, step s = .fault r → step { s with fb := m } = .fault r) ∧
    (∀ r, step s = .refused r → step { s with fb := m } = .refused r) ∧
    State.hostRead { s with fb := m } = s.hostRead

/-! ## The framebuffer -/

/-- 20_memory.md R35, with R32 and R36: the pixel map is a bijection between the in-bounds pixels and the
bits of FB. -/
def Obligations.PixelMapIsABijection : Prop :=
  ∀ c : Config, c.wf →
    (∀ x y : Int, 0 ≤ x → x < c.width → 0 ≤ y → y < c.height →
      pixelByte c x y < c.fbSize ∧ pixelBit y < 8 ∧
      ((pixelByte c x y % c.width : Nat) : Int) = x ∧
      ((8 * (pixelByte c x y / c.width) + pixelBit y : Nat) : Int) = y) ∧
    (∀ i b : Nat, i < c.fbSize → b < 8 →
      inBounds c (i % c.width : Nat) (8 * (i / c.width) + b : Nat) = true ∧
      pixelByte c (i % c.width : Nat) (8 * (i / c.width) + b : Nat) = i ∧
      pixelBit (8 * (i / c.width) + b : Nat) = b)

/-- 10_state.md R30: the host's read of FB; while an operation is in progress for ever the model refuses it
too (log entry 13). -/
def Obligations.HostReadsTheBufferWhole : Prop :=
  (∀ s : State, s.ctrl = .ready → s.hung = false →
    ∃ bs, s.hostRead = .ok bs ∧ bs.length = s.cfg.fbSize ∧
      ∀ i, i < s.cfg.fbSize → bs[i]? = some (Memory.read s.fb i)) ∧
  ∀ s : State, s.ctrl = .uninitialized → s.hostRead = .error .frameUnreadable

/-- 42_framebuffer.md R76. -/
def Obligations.ClearZeroFills : Prop :=
  (∀ s : State, s.ctrl = .ready →
    ∃ t, exec .clear s = .next t ∧ t = { s with fb := t.fb, last := .ok } ∧
      (∀ a, a < s.cfg.fbSize → Memory.read t.fb a = 0x00#8) ∧
      (t.hung = false → t.hostRead = .ok (List.replicate s.cfg.fbSize 0x00#8)) ∧
      exec .clear t = .next t) ∧
  ∀ s : State, s.ctrl = .uninitialized →
    exec .clear s = .next { s with fault := .uninit, last := .faulted }

/-- 42_framebuffer.md R75, by the operation that is `SetPixel` alone (R77): in bounds the one bit gets the
color and every other bit of FB stays; out of bounds FB stays. -/
def Obligations.PixelWritesOneBit : Prop :=
  ∀ (s : State) (x y : Int) (c : Bool), s.Inv → s.ctrl = .ready →
    ∃ t, exec (.pixel x y c) s = .next t ∧ t = { s with fb := t.fb, last := .ok } ∧
      ((0 ≤ x ∧ x < s.cfg.width ∧ 0 ≤ y ∧ y < s.cfg.height) →
        (Memory.read t.fb (x.toNat + y.toNat / 8 * s.cfg.width)).getLsbD (y.toNat % 8) = c ∧
        (∀ b, b ≠ y.toNat % 8 →
          (Memory.read t.fb (x.toNat + y.toNat / 8 * s.cfg.width)).getLsbD b =
            (Memory.read s.fb (x.toNat + y.toNat / 8 * s.cfg.width)).getLsbD b) ∧
        (∀ a, a ≠ x.toNat + y.toNat / 8 * s.cfg.width → Memory.read t.fb a = Memory.read s.fb a)) ∧
      (¬ (0 ≤ x ∧ x < s.cfg.width ∧ 0 ≤ y ∧ y < s.cfg.height) →
        ∀ a, Memory.read t.fb a = Memory.read s.fb a)

/-- 42_framebuffer.md R78: the laws (a) to (d) of PIXEL. -/
def Obligations.PixelLaws : Prop :=
  ∀ (s : State) (x y x' y' : Int) (c c' : Bool), s.Inv → s.ctrl = .ready →
    ∃ t u v,
      exec (.pixel x y c) s = .next t ∧ exec (.pixel x y c') t = .next u ∧
      exec (.pixel x' y' c') t = .next v ∧
      (inBounds s.cfg x y = true → lit s.cfg u.fb x y = c') ∧
      (inBounds s.cfg x y = false → t.fb = s.fb) ∧
      (¬ (x = x' ∧ y = y') →
        ∃ t', exec (.pixel x' y' c') s = .next t' ∧ exec (.pixel x y c) t' = .next v) ∧
      exec (.pixel x y c') s = .next u

/-- 43_shapes.md R80, by the operations that draw it (R81, R85, R86, R87): RECT, DASHED, DOTTED and BORDER
of style 0 to 2 complete where 60_exceptions.md R97 raises nothing, and paint exactly the outline of their
stride. -/
def Obligations.OutlinesPaintTheirSets : Prop :=
  ∀ (s : State) (x y w h : Int) (c : Bool), s.Inv → s.ctrl = .ready →
    ((0 < w ∨ 0 < h) → InRange32 (x + w - 1) ∧ InRange32 (y + h - 1)) →
    (∃ t, exec (.rect x y w h c) s = .next t ∧ Paints s t (OutlineSet x y w h 1) c) ∧
    (∃ t, exec (.dashed x y w h c) s = .next t ∧ Paints s t (OutlineSet x y w h 2) c) ∧
    (∃ t, exec (.dotted x y w h c) s = .next t ∧ Paints s t (OutlineSet x y w h 3) c) ∧
    ∀ st : Fin 8, st.val < 3 →
      ∃ t, exec (.border st x y w h c) s = .next t ∧ Paints s t (OutlineSet x y w h (st.val + 1)) c

/-- 43_shapes.md R83: FILL completes where 60_exceptions.md R97 raises nothing, and paints exactly its
region. -/
def Obligations.FillPaintsItsRegion : Prop :=
  ∀ (s : State) (x y w h : Int) (c : Bool), s.Inv → s.ctrl = .ready →
    (0 < w → 0 < h → InRange32 (x + w - 1) ∧ InRange32 (y + h - 1)) →
    ∃ t, exec (.fill x y w h c) s = .next t ∧ Paints s t (RegionSet x y w h) c

/-- 43_shapes.md R87: BORDER of style 0, 1, 2 is RECT, DASHED, DOTTED in every state; styles 3 to 7 raise
STYLE in READY. -/
def Obligations.BorderStylesSelectTheOutline : Prop :=
  ∀ (s : State) (x y w h : Int) (c : Bool),
    exec (.border 0 x y w h c) s = exec (.rect x y w h c) s ∧
    exec (.border 1 x y w h c) s = exec (.dashed x y w h c) s ∧
    exec (.border 2 x y w h c) s = exec (.dotted x y w h c) s ∧
    ∀ st : Fin 8, 3 ≤ st.val → s.ctrl = .ready →
      exec (.border st x y w h c) s = .next { s with fault := .style, last := .faulted }

/-- 43_shapes.md R88: `SetPixel` of one color over a list of pixels depends on the set alone, not on the
order nor on how often a pixel is written. -/
def Obligations.OrderOfPixelWritesDoesNotMatter : Prop :=
  ∀ (cfg : Config) (m : Memory) (c : Bool) (ps qs : List (Int × Int)), cfg.wf → Memory.wf cfg.fbSize m →
    (∀ p, p ∈ ps ↔ p ∈ qs) → setPixels cfg c ps m = setPixels cfg c qs m

/-- 43_shapes.md R80, R83, R88: the direct computation of RECT, DASHED, DOTTED and FILL (DEDUCED, log entry 11)
leaves the very state the loops of the spec leave. BORDER follows by `BorderStylesSelectTheOutline`. -/
def Obligations.ShapesEqualTheirLoops : Prop :=
  ∀ (s : State) (x y w h : Int) (c : Bool), s.Inv → s.ctrl = .ready →
    (((0 < w ∨ 0 < h) → InRange32 (x + w - 1) ∧ InRange32 (y + h - 1)) →
      exec (.rect x y w h c) s =
        .next { s with fb := setPixels s.cfg c (outlinePixels x y w h 1) s.fb, last := .ok } ∧
      exec (.dashed x y w h c) s =
        .next { s with fb := setPixels s.cfg c (outlinePixels x y w h 2) s.fb, last := .ok } ∧
      exec (.dotted x y w h c) s =
        .next { s with fb := setPixels s.cfg c (outlinePixels x y w h 3) s.fb, last := .ok }) ∧
    ((0 < w → 0 < h → InRange32 (x + w - 1) ∧ InRange32 (y + h - 1)) →
      exec (.fill x y w h c) s =
        .next { s with fb := setPixels s.cfg c (fillPixels x y w h) s.fb, last := .ok })

/-- 43_shapes.md R84: FILL on a clear buffer lights exactly the clipped count of pixels. -/
def Obligations.FillCountLaw : Prop :=
  ∀ (s : State) (x y w h : Int), s.Inv → s.ctrl = .ready → (∀ a, Memory.read s.fb a = 0x00#8) →
    (0 < w → 0 < h → InRange32 (x + w - 1) ∧ InRange32 (y + h - 1)) →
    ∃ t, exec (.fill x y w h true) s = .next t ∧
      (litCount s.cfg t.fb : Int) =
        max 0 (min (x + w) s.cfg.width - max x 0) * max 0 (min (y + h) s.cfg.height - max y 0)

/-- 43_shapes.md R82: RECT wholly in bounds on a clear buffer lights `2w + 2h - 4` pixels. -/
def Obligations.RectCountLaw : Prop :=
  ∀ (s : State) (x y w h : Int), s.Inv → s.ctrl = .ready → (∀ a, Memory.read s.fb a = 0x00#8) →
    2 ≤ w → 2 ≤ h → RectInside s.cfg x y w h → InRange32 (x + w - 1) → InRange32 (y + h - 1) →
    ∃ t, exec (.rect x y w h true) s = .next t ∧ (litCount s.cfg t.fb : Int) = 2 * w + 2 * h - 4

/-- 43_shapes.md R85, R86: the count laws of DASHED and DOTTED wholly in bounds on a clear buffer. -/
def Obligations.DashedAndDottedCountLaws : Prop :=
  ∀ (s : State) (x y w h : Int), s.Inv → s.ctrl = .ready → (∀ a, Memory.read s.fb a = 0x00#8) →
    2 ≤ w → 2 ≤ h → RectInside s.cfg x y w h → InRange32 (x + w - 1) → InRange32 (y + h - 1) →
    (∃ t, exec (.dashed x y w h true) s = .next t ∧
      litCount s.cfg t.fb = outlineCount w.toNat h.toNat 2) ∧
    ∃ t, exec (.dotted x y w h true) s = .next t ∧ litCount s.cfg t.fb = outlineCount w.toNat h.toNat 3

/-! ## The bus -/

/-- Where the answer of a bus write comes from (40_transport.md R59 leaves it free; the two sources are the
model's choice, log entry 4): the next input, else a free draw. Nothing but the source changes. -/
def Obligations.AnswersAreInputsThenFreeDraws : Prop :=
  (∀ (s : State) (r : BusReply) (rest : List BusReply), s.bus = r :: rest →
    drawReply s = (r, { s with bus := rest })) ∧
  ∀ s : State, s.bus = [] →
    drawReply s = (Config.freeBusReply s.draws, { s with draws := s.draws + 1 })

/-- 40_transport.md R66, R61: CMD in any CTRL state, by the answer of its one write, whichever source it comes
from (log entry 4). -/
def Obligations.CmdSendsOneByte : Prop :=
  ∀ (s : State) (b : Byte),
    ((drawReply s).1 = some .ack →
      exec (.cmd b) s = .next { withRepliesDrawn 1 s with
        log := s.log ++ [.write s.cfg.devAddr [s.cfg.ctrlCmd, b] false .ack]
        last := .ok }) ∧
    ((drawReply s).1 = some .fail →
      exec (.cmd b) s = .next { withRepliesDrawn 1 s with
        log := s.log ++ [.write s.cfg.devAddr [s.cfg.ctrlCmd, b] false .fail]
        last := .transportFailure })

/-- 44_flush.md R89: SHOW by the answers of its writes, whichever source they come from (log entry 4). -/
def Obligations.ShowSendsTheWholeFrame : Prop :=
  ∀ s : State,
    (s.ctrl = .ready → (drawReply s).1 = some .ack → (drawReply (drawReply s).2).1 = some .ack →
      exec .showFrame s = .next { withRepliesDrawn 2 s with
        log := s.log ++ [.write s.cfg.devAddr [s.cfg.ctrlData] true .ack,
          .write s.cfg.devAddr ((List.range s.cfg.fbSize).map (fun i => Memory.read s.fb i)) false .ack]
        last := .ok }) ∧
    (s.ctrl = .ready → (drawReply s).1 = some .ack → (drawReply (drawReply s).2).1 = some .fail →
      exec .showFrame s = .next { withRepliesDrawn 2 s with
        log := s.log ++ [.write s.cfg.devAddr [s.cfg.ctrlData] true .ack,
          .write s.cfg.devAddr ((List.range s.cfg.fbSize).map (fun i => Memory.read s.fb i)) false .fail]
        last := .transportFailure }) ∧
    (s.ctrl = .ready → (drawReply s).1 = some .fail →
      exec .showFrame s = .next { withRepliesDrawn 1 s with
        log := s.log ++ [.write s.cfg.devAddr [s.cfg.ctrlData] true .fail]
        last := .transportFailure }) ∧
    (s.ctrl = .uninitialized →
      exec .showFrame s = .next { s with fault := .uninit, last := .faulted })

/-- 41_init.md R68: INIT with every byte acknowledged, in any CTRL state (R71), whichever source the answers
come from (log entry 4). -/
def Obligations.InitBringsTheBlockToReady : Prop :=
  ∀ s : State, (∀ k, k < s.cfg.initSeq.length → replyAt s k = some .ack) →
    ∃ t, exec .init s = .next t ∧
      t = { withRepliesDrawn s.cfg.initSeq.length s with
        fb := t.fb
        ctrl := .ready
        last := .ok
        log := s.log ++ .sleep s.cfg.settleMs :: acknowledged s.cfg s.cfg.initSeq } ∧
      ∀ a, a < s.cfg.fbSize → Memory.read t.fb a = 0x00#8

/-- 41_init.md R70: INIT stops at the first byte that fails, in any CTRL state, whichever source the answers
come from (log entry 4). -/
def Obligations.InitStopsAtTheFirstFailure : Prop :=
  ∀ (s : State) (k : Nat) (b : Byte), s.cfg.initSeq[k]? = some b →
    (∀ j, j < k → replyAt s j = some .ack) → replyAt s k = some .fail →
    exec .init s = .next { withRepliesDrawn (k + 1) s with
      ctrl := .uninitialized
      last := .transportFailure
      log := s.log ++ .sleep s.cfg.settleMs :: acknowledged s.cfg (s.cfg.initSeq.take k) ++
        [.write s.cfg.devAddr [s.cfg.ctrlCmd, b] false .fail] }

/-- 60_exceptions.md R102: an unanswered write leaves its operation in progress for ever; nothing further is
appended, LAST is not written, the block takes no other descriptor, and drawing cannot hang. That the hang is
a next state with `hung` set, after which `step` stops by name, is the model's form (log entry 5); an answer
may come from either source (log entry 4). -/
def Obligations.UnansweredWriteHangsTheBlock : Prop :=
  (∀ (s : State) (b : Byte), (drawReply s).1 = none →
    exec (.cmd b) s = .next { withRepliesDrawn 1 s with hung := true } ∧
    (s.ctrl = .ready → exec .showFrame s = .next { withRepliesDrawn 1 s with hung := true })) ∧
  (∀ s : State, s.ctrl = .ready → (drawReply s).1 = some .ack → (drawReply (drawReply s).2).1 = none →
    exec .showFrame s = .next { withRepliesDrawn 2 s with
      log := s.log ++ [.write s.cfg.devAddr [s.cfg.ctrlData] true .ack]
      hung := true }) ∧
  (∀ (s : State) (k : Nat), k < s.cfg.initSeq.length →
    (∀ j, j < k → replyAt s j = some .ack) → replyAt s k = none →
    exec .init s = .next { withRepliesDrawn (k + 1) s with
      log := s.log ++ .sleep s.cfg.settleMs :: acknowledged s.cfg (s.cfg.initSeq.take k)
      hung := true }) ∧
  (∀ s : State, s.hung = true → (∀ rest, s.host ≠ .reset :: rest) → step s = .fault .busHung) ∧
  ∀ (i : Instr) (s t : State), exec i s = .next t → t.hung ≠ s.hung →
    i = .init ∨ i = .showFrame ∨ ∃ b, i = .cmd b

/-- 44_flush.md R90, 40_transport.md R65: SHOW and CMD never change FB, CTRL or the parameters, whatever the
bus answers; INIT changes FB only by completing with OK, which leaves it all zero (41_init.md R68). -/
def Obligations.TransfersLeaveTheBufferAlone : Prop :=
  (∀ (s : State) (b : Byte), ∀ i ∈ [Instr.showFrame, .cmd b],
    ∃ t, exec i s = .next t ∧ t.fb = s.fb ∧ t.ctrl = s.ctrl ∧ t.cfg = s.cfg ∧ t.host = s.host) ∧
  ∀ s : State, ∃ t, exec .init s = .next t ∧ t.cfg = s.cfg ∧ t.host = s.host ∧
    (t.fb = s.fb ∨ (t.last = .ok ∧ t.ctrl = .ready ∧ ∀ a, Memory.read t.fb a = 0x00#8))

/-- 60_exceptions.md R98: a transport failure is a status of INIT, CMD or SHOW alone, recorded by the failed
write at the end of LOG; it sets no fault. -/
def Obligations.TransportFailureIsNoFault : Prop :=
  ∀ (i : Instr) (s t : State), exec i s = .next t → s.last ≠ .transportFailure →
    t.last = .transportFailure →
    (i = .init ∨ i = .showFrame ∨ ∃ b, i = .cmd b) ∧ t.fault = s.fault ∧
      ∃ es bytes hold, t.log = s.log ++ es ++ [.write s.cfg.devAddr bytes hold .fail]
end

