-- ==== Sys2Proof/Laws/Bus.lean ====
section
/-! SUPPORT. What the bus operations leave alone, and the two ways a bus write goes. -/

namespace Sys2Proof.Machine

/-- All that a transfer may do (40_transport.md R65): append to LOG, take answers, hang. -/
structure BusFrame (s t : State) : Prop where
  cfg : t.cfg = s.cfg
  fb : t.fb = s.fb
  ctrl : t.ctrl = s.ctrl
  fault : t.fault = s.fault
  last : t.last = s.last
  host : t.host = s.host
  log : ∃ es, t.log = s.log ++ es

theorem BusFrame.rfl' (s : State) : BusFrame s s :=
  ⟨rfl, rfl, rfl, rfl, rfl, rfl, [], (List.append_nil _).symm⟩

theorem BusFrame.trans {s t u : State} (h : BusFrame s t) (k : BusFrame t u) : BusFrame s u := by
  obtain ⟨es, he⟩ := h.log
  obtain ⟨fs, hf⟩ := k.log
  exact ⟨k.cfg.trans h.cfg, k.fb.trans h.fb, k.ctrl.trans h.ctrl, k.fault.trans h.fault,
    k.last.trans h.last, k.host.trans h.host, es ++ fs, by rw [hf, he, List.append_assoc]⟩

/-- Drawing an answer changes the environment's fields alone. -/
theorem drawReply_eq (s : State) :
    ∃ bus draws, (drawReply s).2 = { s with bus := bus, draws := draws } := by
  rw [drawReply]
  split
  · exact ⟨_, _, rfl⟩
  · exact ⟨_, _, rfl⟩

/-- An input answer is taken first (R59). -/
theorem drawReply_cons {s : State} {r : BusReply} {rest : List BusReply} (h : s.bus = r :: rest) :
    drawReply s = (r, { s with bus := rest }) := by
  rw [drawReply, h]

/-- A bus write that answers is logged (R60); one that never does sets `hung` and logs nothing
(60_exceptions.md R102). -/
theorem busWrite_cases (addr : BusAddr) (bytes : List Byte) (hold : Bool) (s : State) :
    ∃ bus draws,
      (∃ a, busWrite addr bytes hold s =
        (some a, { s with bus := bus, draws := draws, log := s.log ++ [.write addr bytes hold a] })) ∨
      busWrite addr bytes hold s = (none, { s with bus := bus, draws := draws, hung := true }) := by
  obtain ⟨bus, draws, h⟩ := drawReply_eq s
  refine ⟨bus, draws, ?_⟩
  rw [busWrite, h]
  cases hr : (drawReply s).1 with
  | none => exact .inr rfl
  | some a => exact .inl ⟨a, rfl⟩

/-- A bus write whose answer is an input. -/
theorem busWrite_some {addr : BusAddr} {bytes : List Byte} {hold : Bool} {s : State} {a : BusResult}
    {rest : List BusReply} (h : s.bus = some a :: rest) :
    busWrite addr bytes hold s =
      (some a, { s with bus := rest, log := s.log ++ [.write addr bytes hold a] }) := by
  rw [busWrite, drawReply_cons h]; rfl

/-- A bus write that an input leaves unanswered. -/
theorem busWrite_none {addr : BusAddr} {bytes : List Byte} {hold : Bool} {s : State}
    {rest : List BusReply} (h : s.bus = none :: rest) :
    busWrite addr bytes hold s = (none, { s with bus := rest, hung := true }) := by
  rw [busWrite, drawReply_cons h]; rfl

theorem busWrite_frame (addr : BusAddr) (bytes : List Byte) (hold : Bool) (s : State) :
    BusFrame s (busWrite addr bytes hold s).2 := by
  obtain ⟨bus, draws, ⟨a, h⟩ | h⟩ := busWrite_cases addr bytes hold s
  · rw [h]; exact ⟨rfl, rfl, rfl, rfl, rfl, rfl, _, rfl⟩
  · rw [h]; exact ⟨rfl, rfl, rfl, rfl, rfl, rfl, [], (List.append_nil _).symm⟩

/-- A framing goes on after an ACK alone (R62, R63). -/
theorem andThen_cases (r : BusReply × State) (k : State → BusReply × State) :
    (r.1 = some .ack ∧ andThen r k = k r.2) ∨ (r.1 ≠ some .ack ∧ andThen r k = r) := by
  obtain ⟨r, s⟩ := r
  match r with
  | some .ack => exact .inl ⟨rfl, rfl⟩
  | some .fail => exact .inr ⟨by simp, rfl⟩
  | none => exact .inr ⟨by simp, rfl⟩

theorem andThen_frame {s : State} {r : BusReply × State} {k : State → BusReply × State}
    (hr : BusFrame s r.2) (hk : ∀ t, BusFrame t (k t).2) : BusFrame s (andThen r k).2 := by
  obtain ⟨_, h⟩ | ⟨_, h⟩ := andThen_cases r k
  · rw [h]; exact hr.trans (hk r.2)
  · rw [h]; exact hr

theorem sendCommand_frame (b : Byte) (s : State) : BusFrame s (sendCommand b s).2 :=
  busWrite_frame _ _ _ _

theorem sendData_frame (bytes : List Byte) (s : State) : BusFrame s (sendData bytes s).2 :=
  andThen_frame (busWrite_frame _ _ _ _) fun t => busWrite_frame _ _ _ t

theorem sendCommands_frame (bs : List Byte) (s : State) : BusFrame s (sendCommands bs s).2 := by
  induction bs generalizing s with
  | nil => exact BusFrame.rfl' s
  | cons b bs ih => exact andThen_frame (sendCommand_frame b s) ih

theorem sleepFor_frame (n : Nat) (s : State) : BusFrame s (sleepFor n s) :=
  ⟨rfl, rfl, rfl, rfl, rfl, rfl, _, rfl⟩

/-- A command's write is all that `send_command` appends, if it appends anything (R61). -/
theorem sendCommand_log (b : Byte) (s : State) :
    ∃ es, (sendCommand b s).2.log = s.log ++ es ∧
      ∀ e ∈ es, ∃ r, e = .write s.cfg.devAddr [s.cfg.ctrlCmd, b] false r := by
  obtain ⟨_, _, ⟨a, h⟩ | h⟩ := busWrite_cases s.cfg.devAddr [s.cfg.ctrlCmd, b] false s
  · rw [sendCommand, h]; exact ⟨_, rfl, by simp⟩
  · rw [sendCommand, h]; exact ⟨[], (List.append_nil _).symm, by simp⟩

/-- The command loop of INIT appends command writes alone (41_init.md R68). -/
theorem sendCommands_log (bs : List Byte) (s : State) :
    ∃ es, (sendCommands bs s).2.log = s.log ++ es ∧
      ∀ e ∈ es, ∃ b r, e = .write s.cfg.devAddr [s.cfg.ctrlCmd, b] false r := by
  induction bs generalizing s with
  | nil => exact ⟨[], (List.append_nil _).symm, by simp⟩
  | cons b bs ih =>
    obtain ⟨es, h1, h2⟩ := sendCommand_log b s
    have h2 : ∀ e ∈ es, ∃ b r, e = .write s.cfg.devAddr [s.cfg.ctrlCmd, b] false r :=
      fun e he => ⟨b, h2 e he⟩
    rw [sendCommands]
    obtain ⟨_, h⟩ | ⟨_, h⟩ := andThen_cases (sendCommand b s) (sendCommands bs)
    · obtain ⟨fs, k1, k2⟩ := ih (sendCommand b s).2
      rw [(sendCommand_frame b s).cfg] at k2
      refine ⟨es ++ fs, by rw [h, k1, h1, List.append_assoc], fun e he => ?_⟩
      exact (List.mem_append.1 he).elim (h2 e) (k2 e)
    · rw [h]; exact ⟨es, h1, h2⟩

/-- The four ways `send_data` goes (R62): the control write fails or hangs; or it is acknowledged and the
data write answers or hangs. -/
theorem sendData_cases (bytes : List Byte) (s : State) :
    ∃ bus draws,
      sendData bytes s = (some .fail, { s with
        bus := bus, draws := draws, log := s.log ++ [.write s.cfg.devAddr [s.cfg.ctrlData] true .fail] }) ∨
      sendData bytes s = (none, { s with bus := bus, draws := draws, hung := true }) ∨
      (∃ a, sendData bytes s = (some a, { s with
        bus := bus, draws := draws
        log := s.log ++ [.write s.cfg.devAddr [s.cfg.ctrlData] true .ack,
          .write s.cfg.devAddr bytes false a] })) ∨
      sendData bytes s = (none, { s with
        bus := bus, draws := draws, hung := true
        log := s.log ++ [.write s.cfg.devAddr [s.cfg.ctrlData] true .ack] }) := by
  obtain ⟨b1, d1, ⟨a, h1⟩ | h1⟩ := busWrite_cases s.cfg.devAddr [s.cfg.ctrlData] true s
  · cases a with
    | fail => exact ⟨b1, d1, .inl (by rw [sendData, h1]; rfl)⟩
    | ack =>
      have hs : sendData bytes s = busWrite s.cfg.devAddr bytes false
          { s with bus := b1, draws := d1, log := s.log ++ [.write s.cfg.devAddr [s.cfg.ctrlData] true .ack] } := by
        rw [sendData, h1]; rfl
      obtain ⟨b2, d2, ⟨a, h2⟩ | h2⟩ := busWrite_cases s.cfg.devAddr bytes false
        { s with bus := b1, draws := d1, log := s.log ++ [.write s.cfg.devAddr [s.cfg.ctrlData] true .ack] }
      · exact ⟨b2, d2, .inr (.inr (.inl ⟨a, by rw [hs, h2]; simp⟩))⟩
      · exact ⟨b2, d2, .inr (.inr (.inr (by rw [hs, h2])))⟩
  · exact ⟨b1, d1, .inr (.inl (by rw [sendData, h1]; rfl))⟩

/-- CMD and SHOW end with LAST written, or, hung, with nothing more (60_exceptions.md R98, R102). -/
theorem endTransfer_eq (r : BusReply × State) :
    (∃ a, r.1 = some a ∧ endTransfer r = { r.2 with last := statusOf a }) ∨
      (r.1 = none ∧ endTransfer r = r.2) := by
  obtain ⟨r, s⟩ := r
  cases r with
  | none => exact .inr ⟨rfl, rfl⟩
  | some a => exact .inl ⟨a, rfl, rfl⟩

end Sys2Proof.Machine
end

