-- ==== Sys2Proof/Laws/Memory.lean ====
section
/-! SUPPORT. Framebuffer memory: what a read gives after a write, and that every operation keeps the
canonical form. -/

namespace Sys2Proof.Machine

theorem Memory.wf_nil (n : Nat) : Memory.wf n [] := by simp [Memory.wf]

theorem Memory.wf_cons {n a : Nat} {b : Byte} {m : Memory} :
    Memory.wf n ((a, b) :: m) ↔
      ((∀ c ∈ m, a < c.1) ∧ b ≠ Memory.blank ∧ a < n) ∧ Memory.wf n m := by
  simp only [Memory.wf, List.pairwise_cons, List.mem_cons, forall_eq_or_imp]
  tauto

/-- A byte below every listed address is unlisted. -/
theorem Memory.read_of_lt {m : Memory} {i : Nat} (h : ∀ c ∈ m, i < c.1) :
    Memory.read m i = Memory.blank := by
  induction m with
  | nil => rfl
  | cons c m ih =>
    obtain ⟨a, b⟩ := c
    have hi : i < a := h (a, b) (by simp)
    rw [Memory.read, if_neg (by omega), ih (fun c hc => h c (by simp [hc]))]

/-- A byte past the end of a memory in canonical form is unlisted. -/
theorem Memory.read_of_ge {n i : Nat} {m : Memory} (hm : Memory.wf n m) (h : n ≤ i) :
    Memory.read m i = Memory.blank := by
  induction m with
  | nil => rfl
  | cons c m ih =>
    obtain ⟨a, b⟩ := c
    obtain ⟨⟨_, _, ha⟩, hm⟩ := Memory.wf_cons.1 hm
    rw [Memory.read, if_neg (by omega), ih hm]

/-- Every address a write leaves listed was listed, or is the one written. -/
theorem Memory.mem_write {m : Memory} {i : Nat} {v : Byte} {c : Host.Cell}
    (h : c ∈ Memory.write m i v) : c ∈ m ∨ (c = (i, v) ∧ v ≠ Memory.blank) := by
  induction m with
  | nil =>
    simp only [Memory.write] at h
    split at h <;> simp_all
  | cons d m ih =>
    obtain ⟨a, b⟩ := d
    simp only [Memory.write] at h
    split_ifs at h <;> simp_all <;> tauto

/-- A write inside the framebuffer keeps the canonical form. -/
theorem Memory.write_wf {n i : Nat} {m : Memory} (v : Byte) (hm : Memory.wf n m) (hi : i < n) :
    Memory.wf n (Memory.write m i v) := by
  induction m with
  | nil =>
    rw [Memory.write]
    split_ifs with hv
    · exact hm
    · exact Memory.wf_cons.2 ⟨⟨by simp, hv, hi⟩, hm⟩
  | cons d m ih =>
    obtain ⟨a, b⟩ := d
    obtain ⟨⟨hlt, hb, ha⟩, hm'⟩ := Memory.wf_cons.1 hm
    rw [Memory.write]
    split_ifs with h1 hv h2 hv
    · exact hm
    · refine Memory.wf_cons.2 ⟨⟨?_, hv, hi⟩, hm⟩
      rintro c hc
      rcases List.mem_cons.1 hc with rfl | hc
      · exact h1
      · exact h1.trans (hlt c hc)
    · exact hm'
    · exact Memory.wf_cons.2 ⟨⟨h2 ▸ hlt, hv, hi⟩, hm'⟩
    · refine Memory.wf_cons.2 ⟨⟨?_, hb, ha⟩, ih hm'⟩
      intro c hc
      rcases Memory.mem_write hc with hc | ⟨rfl, _⟩
      · exact hlt c hc
      · simp only; omega

/-- A read after a write gives the value written there, and what it gave before elsewhere. -/
theorem Memory.read_write {n i j : Nat} {m : Memory} {v : Byte} (hm : Memory.wf n m) :
    Memory.read (Memory.write m i v) j = if j = i then v else Memory.read m j := by
  induction m with
  | nil =>
    simp only [Memory.write]
    split_ifs with hv <;> simp_all [Memory.read, eq_comm]
  | cons d m ih =>
    obtain ⟨a, b⟩ := d
    obtain ⟨⟨hlt, _, _⟩, hm'⟩ := Memory.wf_cons.1 hm
    rw [Memory.write]
    split_ifs with h1 hv hj hj h2 hv hj hj hj
    · subst hj hv
      rw [Memory.read, if_neg (by omega)]
      exact Memory.read_of_lt fun c hc => h1.trans (hlt c hc)
    · rfl
    · simp [Memory.read, hj]
    · rw [Memory.read, if_neg (by omega)]
    · subst hj h2 hv
      exact Memory.read_of_lt hlt
    · rw [Memory.read, if_neg (by omega)]
    · simp [Memory.read, hj]
    · rw [Memory.read, Memory.read, if_neg (by omega), if_neg (by omega)]
    · rw [Memory.read, if_neg (by omega), ih hm', if_pos hj]
    · rw [Memory.read, Memory.read, ih hm', if_neg hj]

/-- Two memories in canonical form that read alike are the same data. -/
theorem Memory.eq_of_read {n : Nat} {m k : Memory} (hm : Memory.wf n m) (hk : Memory.wf n k)
    (h : ∀ i < n, Memory.read m i = Memory.read k i) : m = k := by
  have all : ∀ i, Memory.read m i = Memory.read k i := fun i => by
    by_cases hi : i < n
    · exact h i hi
    · rw [Memory.read_of_ge hm (by omega), Memory.read_of_ge hk (by omega)]
  clear h
  induction m generalizing k with
  | nil =>
    cases k with
    | nil => rfl
    | cons d k =>
      obtain ⟨a, b⟩ := d
      obtain ⟨⟨_, hb, _⟩, _⟩ := Memory.wf_cons.1 hk
      have h0 := all a
      simp only [Memory.read, if_pos] at h0
      exact absurd h0.symm hb
  | cons c m ih =>
    obtain ⟨a, b⟩ := c
    obtain ⟨⟨hlt, hb, _⟩, hm'⟩ := Memory.wf_cons.1 hm
    cases k with
    | nil =>
      have h0 := all a
      simp only [Memory.read, if_pos] at h0
      exact absurd h0 hb
    | cons d k =>
      obtain ⟨a', b'⟩ := d
      obtain ⟨⟨hlt', hb', _⟩, hk'⟩ := Memory.wf_cons.1 hk
      have haa : a = a' := by
        rcases Nat.lt_trichotomy a a' with hl | he | hl
        · have h0 := all a
          rw [Memory.read, if_pos rfl, Memory.read_of_lt (m := (a', b') :: k)] at h0
          · exact absurd h0 hb
          · rintro c hc
            rcases List.mem_cons.1 hc with rfl | hc
            · exact hl
            · exact hl.trans (hlt' c hc)
        · exact he
        · have h0 := all a'
          rw [Memory.read_of_lt (m := (a, b) :: m), Memory.read, if_pos rfl] at h0
          · exact absurd h0.symm hb'
          · rintro c hc
            rcases List.mem_cons.1 hc with rfl | hc
            · exact hl
            · exact hl.trans (hlt c hc)
      subst haa
      have hbb : b = b' := by
        have h0 := all a
        rwa [Memory.read, if_pos rfl, Memory.read, if_pos rfl] at h0
      subst hbb
      rw [ih hm' hk' fun i => ?_]
      by_cases hi : a = i
      · subst hi
        rw [Memory.read_of_lt hlt, Memory.read_of_lt hlt']
      · have h0 := all i
        rwa [Memory.read, if_neg hi, Memory.read, if_neg hi] at h0

/-! ## Tabulated memories -/

theorem Memory.tabulate_succ (n : Nat) (f : Nat → Byte) :
    Memory.tabulate (n + 1) f =
      Memory.tabulate n f ++ (if f n = Memory.blank then [] else [(n, f n)]) := by
  rw [Memory.tabulate, List.range_succ, List.filterMap_append]
  congr 1
  split_ifs with h <;> simp [h]

theorem Memory.lt_of_mem_tabulate {n : Nat} {f : Nat → Byte} {c : Host.Cell}
    (h : c ∈ Memory.tabulate n f) : c.1 < n ∧ c.2 = f c.1 ∧ c.2 ≠ Memory.blank := by
  simp only [Memory.tabulate, List.mem_filterMap, List.mem_range] at h
  obtain ⟨i, hi, h⟩ := h
  split at h
  · simp at h
  · simp only [Option.some.injEq] at h
    subst h
    exact ⟨hi, rfl, ‹_›⟩

/-- A tabulated memory is in canonical form. -/
theorem Memory.tabulate_wf (n : Nat) (f : Nat → Byte) : Memory.wf n (Memory.tabulate n f) := by
  refine ⟨?_, fun c hc => ⟨(lt_of_mem_tabulate hc).2.2, (lt_of_mem_tabulate hc).1⟩⟩
  induction n with
  | zero => simp [Memory.tabulate]
  | succ n ih =>
    rw [Memory.tabulate_succ, List.pairwise_append]
    refine ⟨ih, by split_ifs <;> simp, fun c hc d hd => ?_⟩
    split_ifs at hd with h
    · simp at hd
    · simp only [List.mem_singleton] at hd
      subst hd
      exact (lt_of_mem_tabulate hc).1

theorem Memory.read_append {m k : Memory} {i : Nat} (h : ∀ c ∈ k, c.1 ≠ i) :
    Memory.read (m ++ k) i = Memory.read m i := by
  induction m with
  | nil =>
    induction k with
    | nil => rfl
    | cons d k ih =>
      obtain ⟨a, b⟩ := d
      have ha : a ≠ i := h (a, b) (by simp)
      have := ih fun c hc => h c (by simp [hc])
      simpa [Memory.read, ha] using this
  | cons d m ih =>
    obtain ⟨a, b⟩ := d
    simp only [List.cons_append, Memory.read, ih]

theorem Memory.read_append_of_ne {m k : Memory} {i : Nat} (h : ∀ c ∈ m, c.1 ≠ i) :
    Memory.read (m ++ k) i = Memory.read k i := by
  induction m with
  | nil => rfl
  | cons d m ih =>
    obtain ⟨a, b⟩ := d
    have ha : a ≠ i := h (a, b) (by simp)
    simpa [Memory.read, ha] using ih fun c hc => h c (by simp [hc])

/-- Byte `i` of a tabulated memory. -/
theorem Memory.read_tabulate (n : Nat) (f : Nat → Byte) (i : Nat) :
    Memory.read (Memory.tabulate n f) i = if i < n then f i else Memory.blank := by
  induction n with
  | zero => rfl
  | succ n ih =>
    rw [Memory.tabulate_succ]
    by_cases hi : i = n
    · subst hi
      rw [Memory.read_append_of_ne fun c hc => by
        have := (Memory.lt_of_mem_tabulate hc).1; omega]
      split_ifs with h h' <;> simp_all [Memory.read]
    · rw [Memory.read_append, ih]
      · split_ifs <;> first | rfl | omega
      · intro c hc
        split_ifs at hc
        · simp at hc
        · simp only [List.mem_singleton] at hc
          subst hc
          exact fun h => hi h.symm

/-- A zero-filled memory lists nothing. -/
theorem Memory.zeroed_eq_nil (n : Nat) : Memory.zeroed n = [] := by
  simp [Memory.zeroed, Memory.tabulate, Memory.blank]

theorem Memory.zeroed_wf (n : Nat) : Memory.wf n (Memory.zeroed n) := Memory.tabulate_wf n _

theorem Memory.read_zeroed (n i : Nat) : Memory.read (Memory.zeroed n) i = 0#8 := by
  rw [Memory.zeroed_eq_nil]; rfl

theorem Memory.frame_length (n : Nat) (m : Memory) : (Memory.frame n m).length = n := by
  simp [Memory.frame]

theorem Memory.frame_getElem {n : Nat} {m : Memory} {i : Nat} (h : i < (Memory.frame n m).length) :
    (Memory.frame n m)[i] = Memory.read m i := by
  simp [Memory.frame]

end Sys2Proof.Machine
end

