-- ==== Sys2Proof/Laws/PerInstr.lean ====
section
/-! SUPPORT. Laws about the operations as syntax, one lemma per constructor. -/

namespace Sys2Proof.Laws

/-- The bits of a control word, field by field (30_encoding.md R47). -/
theorem getLsbD_controlWord (opc : BitVec 8) (c : Bool) (st : Fin 8) (b : Byte) (i : Nat) :
    (controlWord opc c st b).getLsbD i =
      if i < 8 then opc.getLsbD i
      else if i = 8 then c
      else if i < 12 then (BitVec.ofFin (w := 3) st).getLsbD (i - 9)
      else if i < 16 then false
      else b.getLsbD (i - 16) := by
  have h : (controlWord opc c st b).getLsbD i =
      (((((0#8 ++ b) ++ 0#4) ++ BitVec.ofFin (w := 3) st) ++ BitVec.ofBool c) ++ opc).getLsbD i := rfl
  rw [h]
  simp only [BitVec.getLsbD_append, BitVec.getLsbD_ofBool, BitVec.getLsbD_zero]
  split_ifs <;> first | rfl | omega | rw [BitVec.getLsbD_of_ge b _ (by omega)] | simp_all

theorem fieldOpc_controlWord (opc : BitVec 8) (c : Bool) (st : Fin 8) (b : Byte) :
    fieldOpc (controlWord opc c st b) = opc := by
  apply BitVec.eq_of_getLsbD_eq
  intro i hi
  rw [fieldOpc, BitVec.getLsbD_extractLsb', getLsbD_controlWord, if_pos (by omega), Nat.zero_add]
  simp [hi]

theorem fieldColor_controlWord (opc : BitVec 8) (c : Bool) (st : Fin 8) (b : Byte) :
    fieldColor (controlWord opc c st b) = c := by
  rw [fieldColor, getLsbD_controlWord]; simp

theorem fieldStyle_controlWord (opc : BitVec 8) (c : Bool) (st : Fin 8) (b : Byte) :
    (fieldStyle (controlWord opc c st b)).toFin = st := by
  have : fieldStyle (controlWord opc c st b) = BitVec.ofFin (w := 3) st := by
    apply BitVec.eq_of_getLsbD_eq
    intro i hi
    rw [fieldStyle, BitVec.getLsbD_extractLsb', getLsbD_controlWord, if_neg (by omega), if_neg (by omega),
      if_pos (by omega), Nat.add_sub_cancel_left]
    simp [hi]
  rw [this]

theorem fieldCmdb_controlWord (opc : BitVec 8) (c : Bool) (st : Fin 8) (b : Byte) :
    fieldCmdb (controlWord opc c st b) = b := by
  apply BitVec.eq_of_getLsbD_eq
  intro i hi
  rw [fieldCmdb, BitVec.getLsbD_extractLsb', getLsbD_controlWord, if_neg (by omega), if_neg (by omega),
    if_neg (by omega), if_neg (by omega), Nat.add_sub_cancel_left]
  simp [hi]

end Sys2Proof.Laws

namespace Sys2Proof.Laws.EncodedShape

/-- The encoded descriptor has the length of its table row, and its control word is the row's value under
the row's mask (30_encoding.md R46, R49). -/
def Statement (i : Instr) : Prop :=
  ∃ r d0 ds, encode i = d0 :: ds ∧ rowOf (fieldOpc d0) = some r ∧ (encode i).length = r.words ∧
    d0 &&& r.mask = r.value

theorem init : Statement .init := ⟨_, _, _, rfl, rfl, rfl, by decide⟩
theorem clear : Statement .clear := ⟨_, _, _, rfl, rfl, rfl, by decide⟩
theorem showFrame : Statement .showFrame := ⟨_, _, _, rfl, rfl, rfl, by decide⟩

theorem cmd (b : Byte) : Statement (.cmd b) := by
  refine ⟨⟨.cmd, 1, 0x00000004#32, 0xFF00FFFF#32⟩, _, _, rfl, ?_, rfl, ?_⟩
  · rw [fieldOpc_controlWord]; rfl
  · revert b; decide

/-- The control word of a shape under its mask, whatever the color. -/
theorem color_masked (opc : BitVec 8) (c : Bool) :
    controlWord opc c 0 0#8 &&& 0xFFFFFEFF#32 = controlWord opc false 0 0#8 := by
  revert opc c; decide

theorem pixel (x y : Int) (c : Bool) : Statement (.pixel x y c) := by
  refine ⟨⟨.pixel, 3, 0x00000010#32, 0xFFFFFEFF#32⟩, _, _, rfl, ?_, rfl, color_masked _ _⟩
  rw [fieldOpc_controlWord]; rfl

theorem rect (x y w h : Int) (c : Bool) : Statement (.rect x y w h c) := by
  refine ⟨⟨.rect, 5, 0x00000011#32, 0xFFFFFEFF#32⟩, _, _, rfl, ?_, rfl, color_masked _ _⟩
  rw [fieldOpc_controlWord]; rfl

theorem fill (x y w h : Int) (c : Bool) : Statement (.fill x y w h c) := by
  refine ⟨⟨.fill, 5, 0x00000012#32, 0xFFFFFEFF#32⟩, _, _, rfl, ?_, rfl, color_masked _ _⟩
  rw [fieldOpc_controlWord]; rfl

theorem dashed (x y w h : Int) (c : Bool) : Statement (.dashed x y w h c) := by
  refine ⟨⟨.dashed, 5, 0x00000013#32, 0xFFFFFEFF#32⟩, _, _, rfl, ?_, rfl, color_masked _ _⟩
  rw [fieldOpc_controlWord]; rfl

theorem dotted (x y w h : Int) (c : Bool) : Statement (.dotted x y w h c) := by
  refine ⟨⟨.dotted, 5, 0x00000014#32, 0xFFFFFEFF#32⟩, _, _, rfl, ?_, rfl, color_masked _ _⟩
  rw [fieldOpc_controlWord]; rfl

theorem border (s : Fin 8) (x y w h : Int) (c : Bool) : Statement (.border s x y w h c) := by
  refine ⟨⟨.border, 5, 0x00000015#32, 0xFFFFF0FF#32⟩, _, _, rfl, ?_, rfl, ?_⟩
  · rw [fieldOpc_controlWord]; rfl
  · revert s c; decide

end Sys2Proof.Laws.EncodedShape
end

