-- ==== Sys2Proof/Laws/Pixels.lean ====
section
/-! SUPPORT. Pixels and pixel sets: one lemma for what each framebuffer write does to a byte, a bit or the
canonical form. -/

namespace Sys2Proof.Machine

/-- The clipping test as arithmetic (20_memory.md R36). -/
theorem inBounds_iff {c : Config} {x y : Int} :
    inBounds c x y = true ↔ 0 ≤ x ∧ x < c.width ∧ 0 ≤ y ∧ y < c.height := by
  simp [inBounds, and_assoc]

/-- `0 <= idx < FB_SIZE` for an in-bounds pixel (20_memory.md R32). -/
theorem pixelByte_lt {c : Config} {x y : Int} (hc : c.wf) (h : inBounds c x y = true) :
    pixelByte c x y < c.fbSize := by
  obtain ⟨hx0, hx, hy0, hy⟩ := inBounds_iff.1 h
  obtain ⟨_, _, h8, _⟩ := hc
  obtain ⟨k, hk⟩ : ∃ k, c.height = 8 * k := ⟨c.height / 8, by omega⟩
  have hfb : c.fbSize = c.width * k := by
    rw [Config.fbSize, hk, show c.width * (8 * k) = 8 * (c.width * k) by ring]
    omega
  have hp : y.toNat / 8 + 1 ≤ k := by omega
  have hxw : x.toNat < c.width := by omega
  calc pixelByte c x y = x.toNat + y.toNat / 8 * c.width := rfl
    _ < c.width + y.toNat / 8 * c.width := by omega
    _ = (y.toNat / 8 + 1) * c.width := by ring
    _ ≤ k * c.width := Nat.mul_le_mul_right _ hp
    _ = c.fbSize := by rw [hfb, Nat.mul_comm]

theorem pixelBit_lt (y : Int) : pixelBit y < 8 := Nat.mod_lt _ (by decide)

/-- The bits of a painted byte. -/
theorem getLsbD_paint (c : Bool) (mask old : Byte) (b : Nat) :
    (paint c mask old).getLsbD b = if mask.getLsbD b then c else old.getLsbD b := by
  by_cases hb : b < 8
  · cases c <;> cases hm : mask.getLsbD b <;> cases ho : old.getLsbD b <;>
      simp only [paint, if_true, if_false, Bool.false_eq_true, BitVec.getLsbD_or, BitVec.getLsbD_and,
        BitVec.getLsbD_not, hm, ho, hb, decide_true] <;> rfl
  · have hb : 8 ≤ b := by omega
    simp [BitVec.getLsbD_of_ge _ _ hb]

/-- The bits of a pixel set in one byte. -/
theorem getLsbD_maskOf (cfg : Config) (p : Int → Int → Bool) (i b : Nat) :
    (maskOf cfg p i).getLsbD b = (decide (b < 8) && p (pixelOf cfg i b).1 (pixelOf cfg i b).2) := by
  have key : ∀ n, ((List.range n).foldl
      (fun acc b => if p (pixelOf cfg i b).1 (pixelOf cfg i b).2 then acc ||| 1#8 <<< b else acc)
      (0#8)).getLsbD b = (decide (b < n) && decide (b < 8) && p (pixelOf cfg i b).1 (pixelOf cfg i b).2) := by
    intro n
    induction n with
    | zero => simp
    | succ n ih =>
      rw [List.range_succ, List.foldl_append, List.foldl_cons, List.foldl_nil]
      by_cases hbn : b = n
      · subst hbn
        split_ifs with hp
        · rw [BitVec.getLsbD_or, ih]
          simp [hp]
        · rw [ih]
          simp [hp]
      · have hlt : decide (b < n + 1) = decide (b < n) := by
          simp only [decide_eq_decide]; omega
        rw [hlt]
        split_ifs with hp
        · rw [BitVec.getLsbD_or, ih]
          have : (1#8 <<< n).getLsbD b = false := by
            rw [BitVec.getLsbD_shiftLeft, BitVec.getLsbD_one]
            have : ¬ (b < n) → b - n ≠ 0 := by omega
            by_cases h : b < n <;> simp [h]
            omega
          simp [this]
        · exact ih
  have := key 8
  simpa [maskOf] using this

/-- `SetPixel` inside the framebuffer keeps the canonical form (42_framebuffer.md R75). -/
theorem setPixel_wf {cfg : Config} {m : Memory} (x y : Int) (c : Bool) (hc : cfg.wf)
    (hm : Memory.wf cfg.fbSize m) : Memory.wf cfg.fbSize (setPixel cfg x y c m) := by
  rw [setPixel]
  split_ifs with h
  · exact Memory.write_wf _ hm (pixelByte_lt hc h)
  · exact hm

/-- A clipped pixel is no write (20_memory.md R36). -/
theorem setPixel_outside {cfg : Config} {m : Memory} {x y : Int} {c : Bool}
    (h : inBounds cfg x y = false) : setPixel cfg x y c m = m := by
  simp [setPixel, h]

/-- What `SetPixel` does to every bit: the addressed one gets the color, every other stays (R75). -/
theorem getLsbD_read_setPixel {cfg : Config} {m : Memory} {x y : Int} {c : Bool} {i b : Nat} {n : Nat}
    (hm : Memory.wf n m) :
    (Memory.read (setPixel cfg x y c m) i).getLsbD b =
      if inBounds cfg x y = true ∧ i = pixelByte cfg x y ∧ b = pixelBit y then c
      else (Memory.read m i).getLsbD b := by
  rw [setPixel]
  by_cases h : inBounds cfg x y = true
  · simp only [h, if_true, true_and]
    rw [Memory.read_write hm]
    by_cases hi : i = pixelByte cfg x y
    · subst hi
      simp only [if_true, true_and, getLsbD_paint]
      have hlt := pixelBit_lt y
      have : (1#8 <<< pixelBit y).getLsbD b = decide (b = pixelBit y) := by
        rw [BitVec.getLsbD_shiftLeft, BitVec.getLsbD_one, Bool.eq_iff_iff]
        simp only [Bool.and_eq_true, decide_eq_true_eq, Bool.not_eq_true', decide_eq_false_iff_not]
        omega
      rw [this]
      simp only [decide_eq_true_eq]
    · simp [hi]
  · simp [h]

/-- Painting a set keeps the canonical form (43_shapes.md R88). -/
theorem paintSet_wf (cfg : Config) (p : Int → Int → Bool) (c : Bool) (m : Memory) :
    Memory.wf cfg.fbSize (paintSet cfg p c m) := Memory.tabulate_wf _ _

/-- What painting a set does to every bit of the framebuffer (43_shapes.md R88). -/
theorem getLsbD_read_paintSet {cfg : Config} {p : Int → Int → Bool} {c : Bool} {m : Memory} {i b : Nat}
    (hi : i < cfg.fbSize) (hb : b < 8) :
    (Memory.read (paintSet cfg p c m) i).getLsbD b =
      if p (pixelOf cfg i b).1 (pixelOf cfg i b).2 then c else (Memory.read m i).getLsbD b := by
  rw [paintSet, Memory.read_tabulate, if_pos hi, getLsbD_paint, getLsbD_maskOf]
  simp [hb]

/-- The pixel map takes the pixel of a bit back to that bit (20_memory.md R35). -/
theorem pixelByte_pixelOf {c : Config} {i b : Nat} (hb : b < 8) :
    pixelByte c (pixelOf c i b).1 (pixelOf c i b).2 = i ∧ pixelBit (pixelOf c i b).2 = b := by
  have h8 : (8 * (i / c.width) + b) / 8 = i / c.width := by omega
  refine ⟨?_, ?_⟩
  · simp only [pixelByte, pixelOf, Int.toNat_natCast, h8]
    rw [Nat.mul_comm]
    exact Nat.mod_add_div i c.width
  · simp only [pixelBit, pixelOf, Int.toNat_natCast]
    omega

/-- The bit map takes the bit of an in-bounds pixel back to that pixel (20_memory.md R35). -/
theorem pixelOf_pixelByte {c : Config} {x y : Int} (h : inBounds c x y = true) :
    pixelOf c (pixelByte c x y) (pixelBit y) = (x, y) := by
  obtain ⟨hx0, hx, hy0, hy⟩ := inBounds_iff.1 h
  have hw : x.toNat < c.width := by omega
  have h1 : (x.toNat + y.toNat / 8 * c.width) % c.width = x.toNat := by
    rw [Nat.add_mul_mod_self_right, Nat.mod_eq_of_lt hw]
  have h2 : (x.toNat + y.toNat / 8 * c.width) / c.width = y.toNat / 8 := by
    rw [Nat.add_mul_div_right _ _ (by omega), Nat.div_eq_of_lt hw, Nat.zero_add]
  simp only [pixelOf, pixelByte, pixelBit, h1, h2, Prod.mk.injEq]
  omega

end Sys2Proof.Machine
end

