-- ==== Sys2Proof/Laws/Replies.lean ====
section
/-! SUPPORT. Drawing answers, whatever their source: what a draw looks at and what it changes, and a bus write
by the answer drawn. -/

namespace Sys2Proof.Machine

/-- A draw changes the environment's fields alone. -/
theorem drawReply_snd (s : State) :
    (drawReply s).2 = { s with bus := (drawReply s).2.bus, draws := (drawReply s).2.draws } := by
  obtain ⟨bus, draws, h⟩ := drawReply_eq s
  rw [h]

/-- A draw looks at the environment's fields alone. -/
theorem drawReply_congr {s t : State} (hb : t.bus = s.bus) (hd : t.draws = s.draws) :
    drawReply t =
      ((drawReply s).1, { t with bus := (drawReply s).2.bus, draws := (drawReply s).2.draws }) := by
  unfold drawReply
  rw [hb]
  split <;> simp [hd]

@[simp] theorem withRepliesDrawn_cfg (n : Nat) (s : State) : (withRepliesDrawn n s).cfg = s.cfg := rfl
@[simp] theorem withRepliesDrawn_fb (n : Nat) (s : State) : (withRepliesDrawn n s).fb = s.fb := rfl
@[simp] theorem withRepliesDrawn_ctrl (n : Nat) (s : State) : (withRepliesDrawn n s).ctrl = s.ctrl := rfl
@[simp] theorem withRepliesDrawn_fault (n : Nat) (s : State) : (withRepliesDrawn n s).fault = s.fault := rfl
@[simp] theorem withRepliesDrawn_last (n : Nat) (s : State) : (withRepliesDrawn n s).last = s.last := rfl
@[simp] theorem withRepliesDrawn_log (n : Nat) (s : State) : (withRepliesDrawn n s).log = s.log := rfl
@[simp] theorem withRepliesDrawn_hung (n : Nat) (s : State) : (withRepliesDrawn n s).hung = s.hung := rfl
@[simp] theorem withRepliesDrawn_host (n : Nat) (s : State) : (withRepliesDrawn n s).host = s.host := rfl
@[simp] theorem withRepliesDrawn_bus (n : Nat) (s : State) :
    (withRepliesDrawn n s).bus = (afterReplies n s).bus := rfl
@[simp] theorem withRepliesDrawn_draws (n : Nat) (s : State) :
    (withRepliesDrawn n s).draws = (afterReplies n s).draws := rfl

/-- Drawing no answer changes nothing. -/
theorem withRepliesDrawn_zero (s : State) : withRepliesDrawn 0 s = s := rfl

/-- One draw. -/
theorem withRepliesDrawn_one (s : State) : withRepliesDrawn 1 s = (drawReply s).2 := (drawReply_snd s).symm

/-- Any number of draws changes the environment's fields alone. -/
theorem afterReplies_eq (n : Nat) (s : State) : afterReplies n s = withRepliesDrawn n s := by
  induction n generalizing s with
  | zero => rfl
  | succ n ih =>
    rw [afterReplies, ih, drawReply_snd s]
    simp only [withRepliesDrawn, afterReplies, ← drawReply_snd s]

/-- Answers look at the environment's fields alone. -/
theorem afterReplies_congr {s t : State} (hb : t.bus = s.bus) (hd : t.draws = s.draws) (n : Nat) :
    (afterReplies n t).bus = (afterReplies n s).bus ∧ (afterReplies n t).draws = (afterReplies n s).draws := by
  induction n generalizing s t with
  | zero => exact ⟨hb, hd⟩
  | succ n ih =>
    rw [afterReplies, afterReplies, drawReply_congr hb hd]
    exact ih rfl rfl

theorem replyAt_congr {s t : State} (hb : t.bus = s.bus) (hd : t.draws = s.draws) (k : Nat) :
    replyAt t k = replyAt s k := by
  obtain ⟨h1, h2⟩ := afterReplies_congr hb hd k
  rw [replyAt, replyAt, drawReply_congr h1 h2]

theorem replyAt_succ (s : State) (k : Nat) : replyAt s (k + 1) = replyAt (drawReply s).2 k := rfl

/-- An answered bus write by the answer drawn (40_transport.md R60). -/
theorem busWrite_answered {addr : BusAddr} {bytes : List Byte} {hold : Bool} {s : State} {a : BusResult}
    (h : (drawReply s).1 = some a) :
    busWrite addr bytes hold s =
      (some a, { withRepliesDrawn 1 s with log := s.log ++ [.write addr bytes hold a] }) := by
  rw [busWrite, h, withRepliesDrawn_one, afterReply, drawReply_snd s]

/-- An unanswered bus write (60_exceptions.md R102). -/
theorem busWrite_unanswered {addr : BusAddr} {bytes : List Byte} {hold : Bool} {s : State}
    (h : (drawReply s).1 = none) :
    busWrite addr bytes hold s = (none, { withRepliesDrawn 1 s with hung := true }) := by
  rw [busWrite, h, withRepliesDrawn_one, afterReply]

end Sys2Proof.Machine
end

