-- ==== Sys2Proof/Laws/State.lean ====
section
/-! SUPPORT. The fields of an updated state, one lemma per field per update. -/

namespace Sys2Proof.Machine

/-! ## `complete` writes LAST alone -/

@[simp] theorem complete_cfg (r : Status) (s : State) : (complete r s).cfg = s.cfg := rfl
@[simp] theorem complete_fb (r : Status) (s : State) : (complete r s).fb = s.fb := rfl
@[simp] theorem complete_ctrl (r : Status) (s : State) : (complete r s).ctrl = s.ctrl := rfl
@[simp] theorem complete_fault (r : Status) (s : State) : (complete r s).fault = s.fault := rfl
@[simp] theorem complete_last (r : Status) (s : State) : (complete r s).last = r := rfl
@[simp] theorem complete_log (r : Status) (s : State) : (complete r s).log = s.log := rfl
@[simp] theorem complete_hung (r : Status) (s : State) : (complete r s).hung = s.hung := rfl
@[simp] theorem complete_host (r : Status) (s : State) : (complete r s).host = s.host := rfl
@[simp] theorem complete_bus (r : Status) (s : State) : (complete r s).bus = s.bus := rfl
@[simp] theorem complete_draws (r : Status) (s : State) : (complete r s).draws = s.draws := rfl

/-! ## `sleepFor` appends to LOG alone -/

@[simp] theorem sleepFor_cfg (n : Nat) (s : State) : (sleepFor n s).cfg = s.cfg := rfl
@[simp] theorem sleepFor_fb (n : Nat) (s : State) : (sleepFor n s).fb = s.fb := rfl
@[simp] theorem sleepFor_ctrl (n : Nat) (s : State) : (sleepFor n s).ctrl = s.ctrl := rfl
@[simp] theorem sleepFor_fault (n : Nat) (s : State) : (sleepFor n s).fault = s.fault := rfl
@[simp] theorem sleepFor_last (n : Nat) (s : State) : (sleepFor n s).last = s.last := rfl
@[simp] theorem sleepFor_log (n : Nat) (s : State) : (sleepFor n s).log = s.log ++ [.sleep n] := rfl
@[simp] theorem sleepFor_hung (n : Nat) (s : State) : (sleepFor n s).hung = s.hung := rfl
@[simp] theorem sleepFor_host (n : Nat) (s : State) : (sleepFor n s).host = s.host := rfl
@[simp] theorem sleepFor_bus (n : Nat) (s : State) : (sleepFor n s).bus = s.bus := rfl
@[simp] theorem sleepFor_draws (n : Nat) (s : State) : (sleepFor n s).draws = s.draws := rfl

/-! ## `restart` -/

@[simp] theorem restart_cfg (s : State) (l : List HostEvent) : (restart s l).cfg = s.cfg := rfl
@[simp] theorem restart_fb (s : State) (l : List HostEvent) :
    (restart s l).fb = Memory.tabulate s.cfg.fbSize (Config.freeFbByte s.draws) := rfl
@[simp] theorem restart_ctrl (s : State) (l : List HostEvent) : (restart s l).ctrl = .uninitialized := rfl
@[simp] theorem restart_fault (s : State) (l : List HostEvent) : (restart s l).fault = .none := rfl
@[simp] theorem restart_last (s : State) (l : List HostEvent) : (restart s l).last = .ok := rfl
@[simp] theorem restart_log (s : State) (l : List HostEvent) : (restart s l).log = [] := rfl
@[simp] theorem restart_hung (s : State) (l : List HostEvent) : (restart s l).hung = false := rfl
@[simp] theorem restart_host (s : State) (l : List HostEvent) : (restart s l).host = l := rfl
@[simp] theorem restart_bus (s : State) (l : List HostEvent) : (restart s l).bus = s.bus := rfl
@[simp] theorem restart_draws (s : State) (l : List HostEvent) : (restart s l).draws = s.draws + 1 := rfl

/-! ## `withFetchWord` gives the host an event alone -/

@[simp] theorem withFetchWord_cfg (s : State) (n w : Nat) : (s.withFetchWord n w).cfg = s.cfg := rfl
@[simp] theorem withFetchWord_fb (s : State) (n w : Nat) : (s.withFetchWord n w).fb = s.fb := rfl
@[simp] theorem withFetchWord_ctrl (s : State) (n w : Nat) : (s.withFetchWord n w).ctrl = s.ctrl := rfl
@[simp] theorem withFetchWord_fault (s : State) (n w : Nat) : (s.withFetchWord n w).fault = s.fault := rfl
@[simp] theorem withFetchWord_last (s : State) (n w : Nat) : (s.withFetchWord n w).last = s.last := rfl
@[simp] theorem withFetchWord_log (s : State) (n w : Nat) : (s.withFetchWord n w).log = s.log := rfl
@[simp] theorem withFetchWord_hung (s : State) (n w : Nat) : (s.withFetchWord n w).hung = s.hung := rfl
@[simp] theorem withFetchWord_host (s : State) (n w : Nat) :
    (s.withFetchWord n w).host = .submit (tableDescriptor n w) :: s.host := rfl
@[simp] theorem withFetchWord_bus (s : State) (n w : Nat) : (s.withFetchWord n w).bus = s.bus := rfl
@[simp] theorem withFetchWord_draws (s : State) (n w : Nat) : (s.withFetchWord n w).draws = s.draws := rfl

end Sys2Proof.Machine
end

