-- ==== Sys2Proof/Laws/Step.lean ====
section
/-! SUPPORT. What one step can do, and what each meaning can do, said once. -/

namespace Sys2Proof.Machine

/-- A step that answers a next state: a reset, an idle block, a rejected descriptor, or an operation. -/
theorem step_next {s t : State} (h : step s = .next t) :
    (∃ rest, s.host = .reset :: rest ∧ t = restart s rest) ∨
    (s.host = [] ∧ s.hung = false ∧ t = s) ∨
    (∃ d rest, s.host = .submit d :: rest ∧ s.hung = false ∧ s.fault = .none ∧
      ((∃ e, decode d = .error e ∧
          t = { s with host := rest, fault := decodeFaultCode e, last := .faulted }) ∨
        ∃ i, decode d = .ok i ∧ exec i { s with host := rest } = .next t)) := by
  unfold step respond at h
  split at h
  case h_1 rest hs =>
    cases h
    exact .inl ⟨rest, hs, rfl⟩
  case h_2 hs =>
    split_ifs at h with hh
    cases h
    exact .inr (.inl ⟨hs, by simpa using hh, rfl⟩)
  case h_3 d rest hs =>
    split_ifs at h with hh hf
    refine .inr (.inr ⟨d, rest, hs, by simpa using hh, by simpa using hf, ?_⟩)
    unfold submit at h
    split at h
    case h_1 e he =>
      cases h
      exact .inl ⟨e, he, rfl⟩
    case h_2 i hi => exact .inr ⟨i, hi, h⟩

/-- The READY check: the operation goes on, or UNINIT is raised (42_framebuffer.md R74). -/
theorem ifReady_cases (s : State) (k : Host.Outcome State Fault Refusal) :
    (s.ctrl = .ready ∧ ifReady s k = k) ∨
      (s.ctrl = .uninitialized ∧ ifReady s k = .next { s with fault := .uninit, last := .faulted }) := by
  unfold ifReady
  split
  case h_1 h => exact .inl ⟨h, rfl⟩
  case h_2 h => exact .inr ⟨h, rfl⟩

/-- An outline is painted and completes, or RANGE is raised (60_exceptions.md R97). -/
theorem drawOutline_cases (n : Nat) (x y w h : Int) (c : Bool) (s : State) :
    (outlineInRange x y w h = true ∧ drawOutline n x y w h c s =
      .next { s with fb := paintSet s.cfg (inOutline x y w h n) c s.fb, last := .ok }) ∨
    (outlineInRange x y w h = false ∧ drawOutline n x y w h c s =
      .next { s with fault := .range, last := .faulted }) := by
  rw [drawOutline]
  cases hr : outlineInRange x y w h with
  | true => exact .inl ⟨rfl, rfl⟩
  | false => exact .inr ⟨rfl, rfl⟩

/-- The three ways a drawing operation ends. -/
inductive DrawEnd (s : State) : State → Prop where
  | done (fb : Memory) (h : s.ctrl = .ready)
      (hfb : fb = Memory.zeroed s.cfg.fbSize ∨ (∃ x y c, fb = setPixel s.cfg x y c s.fb) ∨
        ∃ p c, fb = paintSet s.cfg p c s.fb) : DrawEnd s { s with fb := fb, last := .ok }
  | notReady (h : s.ctrl = .uninitialized) : DrawEnd s { s with fault := .uninit, last := .faulted }
  | raised (code : FaultCode) (h : s.ctrl = .ready) (hc : code = .style ∨ code = .range) :
      DrawEnd s { s with fault := code, last := .faulted }

theorem drawOutline_end (n : Nat) (x y w h : Int) (c : Bool) {s : State} (hr : s.ctrl = .ready) :
    ∃ t, drawOutline n x y w h c s = .next t ∧ DrawEnd s t := by
  obtain ⟨_, he⟩ | ⟨_, he⟩ := drawOutline_cases n x y w h c s
  · exact ⟨_, he, .done _ hr (.inr (.inr ⟨_, _, rfl⟩))⟩
  · exact ⟨_, he, .raised .range hr (.inr rfl)⟩

/-- The READY check of a drawing operation. -/
theorem ifReady_end {s : State} {k : Host.Outcome State Fault Refusal}
    (hk : s.ctrl = .ready → ∃ t, k = .next t ∧ DrawEnd s t) :
    ∃ t, ifReady s k = .next t ∧ DrawEnd s t := by
  obtain ⟨hr, he⟩ | ⟨hr, he⟩ := ifReady_cases s k
  · rw [he]; exact hk hr
  · exact ⟨_, he, .notReady hr⟩

/-- Every drawing operation answers a next state of one of those three forms (42_framebuffer.md R79,
43_shapes.md). -/
theorem exec_draw_end {i : Instr} (s : State) (hi : i.draws = true) :
    ∃ t, exec i s = .next t ∧ DrawEnd s t := by
  cases i with
  | init => simp [Instr.draws] at hi
  | showFrame => simp [Instr.draws] at hi
  | cmd b => simp [Instr.draws] at hi
  | clear => exact ifReady_end fun hr => ⟨_, rfl, .done _ hr (.inl rfl)⟩
  | pixel x y c => exact ifReady_end fun hr => ⟨_, rfl, .done _ hr (.inr (.inl ⟨x, y, c, rfl⟩))⟩
  | rect x y w h c => exact ifReady_end fun hr => drawOutline_end 1 x y w h c hr
  | dashed x y w h c => exact ifReady_end fun hr => drawOutline_end 2 x y w h c hr
  | dotted x y w h c => exact ifReady_end fun hr => drawOutline_end 3 x y w h c hr
  | fill x y w h c =>
    refine ifReady_end fun hr => ?_
    split_ifs
    · exact ⟨_, rfl, .done _ hr (.inr (.inr ⟨_, _, rfl⟩))⟩
    · exact ⟨_, rfl, .raised .range hr (.inr rfl)⟩
  | border st x y w h c =>
    refine ifReady_end fun hr => ?_
    split_ifs
    · exact ⟨_, rfl, .raised .style hr (.inl rfl)⟩
    · exact drawOutline_end _ x y w h c hr

/-! ## What an operation appends to LOG -/

/-- What one operation may append to LOG (10_state.md R26): sleeps and command writes; or a data control
write that fails, or that is acknowledged before a hang; or that and the frame. -/
inductive Appends (s t : State) : List BusEvent → Prop where
  | commands (es : List BusEvent)
      (h : ∀ e ∈ es, e = .sleep s.cfg.settleMs ∨
        ∃ b r, e = .write s.cfg.devAddr [s.cfg.ctrlCmd, b] false r) : Appends s t es
  | controlFails : Appends s t [.write s.cfg.devAddr [s.cfg.ctrlData] true .fail]
  | frameHangs (h : t.hung = true) : Appends s t [.write s.cfg.devAddr [s.cfg.ctrlData] true .ack]
  | frameSent (r : BusResult) : Appends s t
      [.write s.cfg.devAddr [s.cfg.ctrlData] true .ack,
       .write s.cfg.devAddr (Memory.frame s.cfg.fbSize s.fb) false r]

theorem Appends.nil (s t : State) : Appends s t [] := .commands [] (by simp)

theorem endInit_log (r : BusReply × State) : (endInit r).log = r.2.log := by
  unfold endInit; split <;> rfl

theorem endTransfer_log (r : BusReply × State) : (endTransfer r).log = r.2.log := by
  unfold endTransfer; split <;> rfl

/-- Every operation that answers a next state appends one of those to LOG. -/
theorem exec_appends {i : Instr} {s t : State} (h : exec i s = .next t) :
    ∃ es, t.log = s.log ++ es ∧ Appends s t es := by
  by_cases hd : i.draws = true
  · obtain ⟨t', h', he⟩ := exec_draw_end s hd
    rw [h'] at h
    cases h
    cases he <;> exact ⟨[], (List.append_nil _).symm, Appends.nil _ _⟩
  cases i with
  | clear => exact absurd rfl hd
  | pixel x y c => exact absurd rfl hd
  | rect x y w h c => exact absurd rfl hd
  | fill x y w h c => exact absurd rfl hd
  | dashed x y w h c => exact absurd rfl hd
  | dotted x y w h c => exact absurd rfl hd
  | border st x y w h c => exact absurd rfl hd
  | init =>
    cases h
    obtain ⟨es, h1, h2⟩ := sendCommands_log s.cfg.initSeq (sleepFor s.cfg.settleMs s)
    refine ⟨.sleep s.cfg.settleMs :: es, ?_, .commands _ fun e he => ?_⟩
    · rw [endInit_log, h1]
      simp [sleepFor]
    · exact (List.mem_cons.1 he).imp_right (h2 e)
  | cmd b =>
    cases h
    obtain ⟨es, h1, h2⟩ := sendCommand_log b s
    exact ⟨es, by rw [endTransfer_log, h1], .commands es fun e he => .inr ⟨b, h2 e he⟩⟩
  | showFrame =>
    obtain ⟨_, he⟩ | ⟨_, he⟩ :=
      ifReady_cases s (.next (endTransfer (sendData (Memory.frame s.cfg.fbSize s.fb) s)))
    · rw [exec, execShow, he] at h
      cases h
      rw [endTransfer_log]
      obtain ⟨bus, draws, h1 | h1 | ⟨a, h1⟩ | h1⟩ := sendData_cases (Memory.frame s.cfg.fbSize s.fb) s
      · rw [h1]; exact ⟨_, rfl, .controlFails⟩
      · rw [h1]; exact ⟨[], (List.append_nil _).symm, Appends.nil _ _⟩
      · rw [h1]; exact ⟨_, rfl, .frameSent a⟩
      · rw [h1]; exact ⟨_, rfl, .frameHangs rfl⟩
    · rw [exec, execShow, he] at h
      cases h
      exact ⟨[], (List.append_nil _).symm, Appends.nil _ _⟩

end Sys2Proof.Machine
end

