-- ==== Sys2Proof/Tests/Slice0.lean ====
section
/-! SUPPORT. The model's own tests. Expected results are the spec's own: the vectors of 95_test_vectors.md and
the examples of the rules, under the illustrative parameters of its section 0. Vectors whose pixels lie in the
first columns of page 0 are run on a display of 16 by 8 pixels, where their bytes have the same indices. -/

namespace Sys2Proof.Tests
open Sys2Proof.Machine

/-! ## Helpers -/

/-- `INIT_SEQ_GK` (41_init.md R67): illustrative bytes. -/
def groupsGk : InitGroups where
  clockDivider := ⟨0xD5#8, [0x80#8]⟩
  multiplexRatio := ⟨0xA8#8, [0x3F#8]⟩
  displayOffset := ⟨0xD3#8, [0x00#8]⟩
  startLine := ⟨0x40#8, []⟩
  chargePumpEnable := ⟨0x8D#8, [0x14#8]⟩
  addressingMode := ⟨0x20#8, [0x00#8]⟩
  segmentRemap := ⟨0xA1#8, []⟩
  scanDirection := ⟨0xC8#8, []⟩
  comPinConfiguration := ⟨0xDA#8, [0x12#8]⟩
  contrast := ⟨0x81#8, [0xCF#8]⟩
  preChargeTiming := ⟨0xD9#8, [0xF1#8]⟩
  vcomDeselectLevel := ⟨0xDB#8, [0x40#8]⟩
  displayOn := ⟨0xAF#8, []⟩

/-- The parameters of 95_test_vectors.md section 0 at a geometry. -/
def params (width height : Nat) : Config where
  width := width
  height := height
  devAddr := 0x3C#7
  ctrlCmd := 0x00#8
  ctrlData := 0x40#8
  initGroups := groupsGk
  settleMs := 100

/-- "fresh" of 95_test_vectors.md, on a bus that will answer so. -/
def fresh (cfg : Config) (bus : List BusReply) : State := { State.reset with cfg := cfg, bus := bus }

/-- "ready" of 95_test_vectors.md, on a bus that will answer so. -/
def ready (cfg : Config) (bus : List BusReply) : State := { fresh cfg bus with ctrl := .ready }

def next? (o : Host.Outcome State Fault Refusal) : Option State :=
  match o with
  | .next s => some s
  | .fault _ => none
  | .refused _ => none

/-- The bytes of FB that are not 0x00 after an operation. -/
def nz (i : Instr) (s : State) : Option Memory := (next? (exec i s)).map State.fb

/-- STATUS and LOG after an operation. -/
def statusLog (i : Instr) (s : State) : Option (Word × List BusEvent) :=
  (next? (exec i s)).map (fun t => (t.status, t.log))

/-- STATUS after the block takes a descriptor. -/
def submitted (d : Descriptor) (s : State) : Option Word :=
  (next? (step { s with host := [.submit d] })).map State.status

def acks (n : Nat) : List BusReply := List.replicate n (some .ack)

def small : Config := params 16 8

/-! ## WellFormed: one ill-formed term for each check -/

theorem test_wf_refuses_pixel :
    (Instr.pixel 2147483648 0 true).wf = false ∧ (Instr.pixel 0 (-2147483649) true).wf = false := by decide

theorem test_wf_refuses_rect :
    (Instr.rect 2147483648 0 1 1 true).wf = false ∧ (Instr.rect 0 2147483648 1 1 true).wf = false ∧
    (Instr.rect 0 0 2147483648 1 true).wf = false ∧ (Instr.rect 0 0 1 (-2147483649) true).wf = false := by
  decide

theorem test_wf_refuses_other_shapes :
    (Instr.fill (-2147483649) 0 1 1 true).wf = false ∧ (Instr.dashed 0 2147483648 1 1 true).wf = false ∧
    (Instr.dotted 0 0 2147483648 1 true).wf = false ∧
    (Instr.border 0 0 0 1 2147483648 true).wf = false := by decide

theorem test_wf_admits_extremes :
    (Instr.pixel (-2147483648) 2147483647 true).wf = true ∧ Instr.init.wf = true := by decide

/-! ## Decoding: words written out from 30_encoding.md R47 to R49, with the spec's own examples -/

theorem test_decode_init : decode [0b00000000000000000000000000000001#32] = .ok .init := by decide
theorem test_decode_clear : decode [0b00000000000000000000000000000010#32] = .ok .clear := by decide
theorem test_decode_show : decode [0b00000000000000000000000000000011#32] = .ok .showFrame := by decide
theorem test_decode_cmd : decode [0b00000000101001110000000000000100#32] = .ok (.cmd 0xA7#8) := by decide
theorem test_decode_pixel :
    decode [0b00000000000000000000000100010000#32, 0x80000000#32, 0x7FFFFFFF#32] =
      .ok (.pixel (-2147483648) 2147483647 true) := by decide
theorem test_decode_rect :
    decode [0b00000000000000000000000000010001#32, 5#32, 6#32, 3#32, 0xFFFFFFFE#32] =
      .ok (.rect 5 6 3 (-2) false) := by decide
theorem test_decode_fill :
    decode [0b00000000000000000000000100010010#32, 0x3C#32, 0x1C#32, 8#32, 8#32] =
      .ok (.fill 60 28 8 8 true) := by decide
theorem test_decode_dashed :
    decode [0b00000000000000000000000100010011#32, 1#32, 2#32, 3#32, 4#32] =
      .ok (.dashed 1 2 3 4 true) := by decide
theorem test_decode_dotted :
    decode [0b00000000000000000000000000010100#32, 0#32, 8#32, 7#32, 7#32] =
      .ok (.dotted 0 8 7 7 false) := by decide
theorem test_decode_border :
    decode [0b00000000000000000000101100010101#32, 0#32, 0#32, 4#32, 4#32] =
      .ok (.border 5 0 0 4 4 true) := by decide

/-- 95_test_vectors.md 2.9: the decoder's faults and their order. -/
theorem test_decode_faults :
    decode [] = .error .length ∧ decode [0#32] = .error .illegalOp ∧ decode [0xFF#32] = .error .illegalOp ∧
    decode [0x20#32, 1#32, 2#32] = .error .illegalOp ∧ decode [1#32, 0#32] = .error .length ∧
    decode [0x10#32] = .error .length ∧ decode [0x11#32, 0#32, 0#32] = .error .length ∧
    decode [0x1001#32, 0#32] = .error .length ∧ decode [0x101#32] = .error .reserved ∧
    decode [0x1002#32] = .error .reserved ∧ decode [0x210#32, 0#32, 0#32] = .error .reserved ∧
    decode [0x10010#32, 0#32, 0#32] = .error .reserved ∧
    decode [0x1015#32, 0#32, 0#32, 1#32, 1#32] = .error .reserved ∧
    decode [0x01000004#32] = .error .reserved ∧ decode [0x00AF0104#32] = .error .reserved := by decide

theorem test_encode_fill :
    encode (.fill 60 28 8 8 true) = [0x112#32, 0x3C#32, 0x1C#32, 8#32, 8#32] ∧
    encode (.cmd 0x81#8) = [0x00810004#32] ∧
    encode (.border 1 0 0 128 64 true) = [0x315#32, 0#32, 0#32, 0x80#32, 0x40#32] := by decide

theorem test_stored_bytes :
    descriptorBytes [0x00810004#32] = [0x04#8, 0x00#8, 0x81#8, 0x00#8] ∧
    wordsOfBytes [0x04#8, 0x00#8, 0x81#8, 0x00#8] = some [0x00810004#32] ∧
    wordsOfBytes [0x04#8, 0x00#8] = none := by decide

theorem test_table_words :
    decodeTableWord 32 0x00000112 = some (.fill 0 0 0 0 true) ∧
    decodeTableWord 96 0x00000005FFFFFFFF00000110 = some (.pixel (-1) 5 true) ∧
    decodeTableWord 32 0x00000016 = none ∧ decodeTableWord 32 0x00001002 = none := by decide

/-! ## The assembler (30_encoding.md R57, R58) -/

theorem test_assembler_lines :
    descriptorsOfLine (params 128 64) "FILL 60, 28, 8, 8, 1" =
      some [[0x112#32, 0x3C#32, 0x1C#32, 8#32, 8#32]] ∧
    descriptorsOfLine (params 128 64) "CMD 0x81" = some [[0x00810004#32]] ∧
    descriptorsOfLine (params 128 64) "PIXEL -1, 5, 2" = none := by decide +kernel

theorem test_assembler_frame :
    assembleLine (params 128 64) "FRAME 1, 0, 0, 128, 64, 60, 28, 8, 8" =
      some [.clear, .border 1 0 0 128 64 true, .fill 60 28 8 8 true, .showFrame] := by decide +kernel

/-! ## The operations, one step each -/

/-- V3: INIT on an all-ACK bus leaves 23 entries. -/
theorem test_init_all_ack :
    (statusLog .init (fresh small (acks 22))).map (fun r => (r.1, r.2.length, r.2.take 2)) =
      some (0x00000004#32, 23, [.sleep 100, .write 0x3C#7 [0x00#8, 0xD5#8] false .ack]) := by decide

/-- 2.8: FAIL on the second command write of a re-init. -/
theorem test_init_second_fails :
    statusLog .init (ready small [some .ack, some .fail]) =
      some (0x00000001#32, [.sleep 100, .write 0x3C#7 [0x00#8, 0xD5#8] false .ack,
        .write 0x3C#7 [0x00#8, 0x80#8] false .fail]) := by decide

/-- 2.2. -/
theorem test_clear :
    nz .clear { ready small [] with fb := [(5, 0xA5#8)] } = some [] ∧
    statusLog .clear (fresh small []) = some (0x00000012#32, []) := by decide

/-- 2.7, on a display of 3 by 8 pixels: the frame is FB in ascending order. -/
theorem test_show :
    statusLog .showFrame { ready (params 3 8) (acks 2) with fb := [(0, 0x01#8)] } =
      some (0x00000004#32, [.write 0x3C#7 [0x40#8] true .ack,
        .write 0x3C#7 [0x01#8, 0x00#8, 0x00#8] false .ack]) := by decide

theorem test_show_first_fails :
    statusLog .showFrame (ready small [some .fail]) =
      some (0x00000005#32, [.write 0x3C#7 [0x40#8] true .fail]) := by decide

/-- 2.6. -/
theorem test_cmd :
    statusLog (.cmd 0xAE#8) (fresh small (acks 1)) =
      some (0x00000000#32, [.write 0x3C#7 [0x00#8, 0xAE#8] false .ack]) ∧
    statusLog (.cmd 0xA7#8) (ready small [some .fail]) =
      some (0x00000005#32, [.write 0x3C#7 [0x00#8, 0xA7#8] false .fail]) := by decide

/-- 2.6: a hang writes neither LOG nor LAST, and no step follows. -/
theorem test_cmd_hangs :
    (next? (exec (.cmd 0x81#8) (ready small [none]))).map (fun t => (t.hung, t.log, t.last)) =
      some (true, [], .ok) := by decide

/-- 2.1, on the display of 128 by 64. -/
theorem test_pixel :
    nz (.pixel 5 13 true) (ready (params 128 64) []) = some [(133, 0x20#8)] ∧
    nz (.pixel 127 63 true) (ready (params 128 64) []) = some [(1023, 0x80#8)] := by decide

/-- V2 and 2.1: clipped, with no fault. -/
theorem test_pixel_clipped :
    nz (.pixel (-1) 5 true) (ready (params 128 64) []) = some [] ∧
    nz (.pixel 128 5 true) (ready (params 128 64) []) = some [] ∧
    statusLog (.pixel (-2147483648) 2147483647 true) (ready (params 128 64) []) =
      some (0x00000004#32, []) := by decide

/-- V7, and 2.3 with a negative extent. -/
theorem test_rect :
    nz (.rect 0 0 4 3 true) (ready small []) = some [(0, 0x07#8), (1, 0x05#8), (2, 0x05#8), (3, 0x07#8)] ∧
    nz (.rect 5 5 3 (-2) true) (ready small []) = some [(5, 0x24#8), (6, 0x24#8), (7, 0x24#8)] := by
  decide +kernel

/-- 2.9: RANGE by the column, by the row of an empty height, and none at the edge of the range. -/
theorem test_rect_range :
    (statusLog (.rect 2147483647 0 2 2 true) (ready small [])).map Prod.fst = some 0x00000066#32 ∧
    (statusLog (.rect (-2147483648) (-2147483648) 1 0 true) (ready small [])).map Prod.fst =
      some 0x00000066#32 ∧
    (statusLog (.rect 2147483646 0 2 2 true) (ready small [])).map Prod.fst = some 0x00000004#32 := by
  decide +kernel

/-- V1, on the display of 128 by 64. -/
theorem test_fill_scenario :
    nz (.fill 60 28 8 8 true) (ready (params 128 64) []) =
      some ((List.range 8).map (fun i => (444 + i, 0xF0#8)) ++
        (List.range 8).map (fun i => (572 + i, 0x0F#8))) := by decide +kernel

/-- V6 clipped, and 2.4: an empty height escapes the range check. -/
theorem test_fill_clipped :
    nz (.fill (-5) (-5) 10 10 true) (ready small []) =
      some [(0, 0x1F#8), (1, 0x1F#8), (2, 0x1F#8), (3, 0x1F#8), (4, 0x1F#8)] ∧
    (statusLog (.fill 2147483647 0 2 0 true) (ready small [])).map Prod.fst = some 0x00000004#32 := by
  decide +kernel

/-- V8. -/
theorem test_dashed :
    nz (.dashed 0 0 4 4 true) (ready small []) = some [(0, 0x0D#8), (2, 0x09#8), (3, 0x05#8)] ∧
    nz (.dashed 0 0 6 3 true) (ready small []) =
      some [(0, 0x05#8), (2, 0x05#8), (4, 0x05#8), (5, 0x05#8)] := by decide +kernel

/-- V8. -/
theorem test_dotted :
    nz (.dotted 0 0 7 7 true) (ready small []) = some [(0, 0x49#8), (3, 0x41#8), (6, 0x49#8)] ∧
    nz (.dotted 0 0 2 5 true) (ready small []) = some [(0, 0x19#8), (1, 0x09#8)] := by decide +kernel

/-- 2.5. -/
theorem test_border :
    nz (.border 1 0 0 4 4 true) (ready small []) = some [(0, 0x0D#8), (2, 0x09#8), (3, 0x05#8)] ∧
    (statusLog (.border 3 2147483647 0 5 5 true) (ready small [])).map Prod.fst = some 0x00000056#32 := by
  decide +kernel

/-- 2.9: what a submission leaves in STATUS, from fresh. -/
theorem test_submissions :
    submitted [] (fresh small []) = some 0x00000042#32 ∧
    submitted [0#32] (fresh small []) = some 0x00000022#32 ∧
    submitted [0x101#32] (fresh small []) = some 0x00000032#32 ∧
    submitted [0xB15#32, 0#32, 0#32, 1#32, 1#32] (fresh small []) = some 0x00000012#32 := by decide

/-- 2.9: from ready `00000000` gives STATUS 0x26, and a block that has faulted refuses INIT. -/
theorem test_sticky_fault :
    submitted [0#32] (ready small []) = some 0x00000026#32 ∧
    step { ready small [] with fault := .illegalOp, last := .faulted, host := [.submit [1#32]] } =
      .refused .blockFaulted := ⟨by decide, rfl⟩

/-- The first instruction after reset (log entry 10): a framebuffer operation faults, CMD reaches the bus. -/
theorem test_first_step :
    next? (step (State.reset.withFetchWord 32 0x00000010)) =
      some { State.reset with fault := .uninit, last := .faulted } ∧
    step (State.reset.withFetchWord 32 0x00810004) = exec (.cmd 0x81#8) State.reset := ⟨rfl, rfl⟩

/-! ## Witnesses: every statement's hypotheses met together -/

/-- A READY block that has drawn. -/
def drawn : State := { ready small [] with fb := [(0, 0x80#8), (15, 0x01#8)] }

/-- `s`, about to take `d`. -/
def taking (s : State) (d : Descriptor) : State := { s with host := [.submit d] }

/-- A block whose CMD hangs. -/
def hungBlock : State := { ready small [] with hung := true, host := [.submit [0x00000002#32]] }

theorem witness_DecodeAfterEncode : (Instr.border 7 (-2147483648) 2147483647 0 (-1) true).wf = true := by decide

theorem witness_EncodeAfterDecode : decode [0x00000F15#32, 0#32, 0#32, 0#32, 0#32] = .ok (.border 7 0 0 0 0 true) := by
  decide

theorem witness_UnassignedOpcodesFault :
    (Submits (taking drawn [0x00000000#32]) [0x00000000#32] [] ∧ (fieldOpc 0x00000000#32).toNat = 0) ∧
    (Submits (taking drawn [0x0000000F#32]) [0x0000000F#32] [] ∧ (fieldOpc 0x0000000F#32).toNat = 0x0F) ∧
    (Submits (taking drawn [0x00000016#32]) [0x00000016#32] [] ∧ (fieldOpc 0x00000016#32).toNat = 0x16) ∧
    decode [0x000000FF#32] = .error .illegalOp := by decide

theorem witness_WrongWordCountFaults :
    (Submits (taking drawn [0x00000004#32, 0#32]) [0x00000004#32, 0#32] [] ∧
      (fieldOpc 0x00000004#32).toNat = 4) ∧
    (Submits (taking drawn [0x00000010#32]) [0x00000010#32] [] ∧ (fieldOpc 0x00000010#32).toNat = 0x10) ∧
    (Submits (taking drawn [0x00000015#32]) [0x00000015#32] [] ∧ (fieldOpc 0x00000015#32).toNat = 0x15) ∧
    Submits (taking drawn []) [] [] := by decide

theorem witness_ReservedAndUnusedBitsFault :
    (Submits (taking drawn [0x01000004#32]) [0x01000004#32] [] ∧ (fieldOpc 0x01000004#32).toNat = 4 ∧
      (0x01000004#32 : Word).extractLsb' 24 8 ≠ 0#8) ∧
    (Submits (taking drawn [0x00000210#32, 0#32, 0#32]) [0x00000210#32, 0#32, 0#32] [] ∧
      (fieldOpc 0x00000210#32).toNat = 0x10 ∧ fieldStyle 0x00000210#32 ≠ 0#3) ∧
    (fieldOpc 0x00000F15#32).toNat = 0x15 ∧ (0x00000F15#32 : Word).extractLsb' 12 4 = 0#4 ∧
      (0x00000F15#32 : Word).extractLsb' 24 8 = 0#8 ∧ fieldCmdb 0x00000F15#32 = 0#8 := by decide

/-- 30_encoding.md R57: operands out of range, and a mnemonic in lower case, do not assemble. -/
theorem test_assembler_refuses :
    assemble "CMD" [256] = none ∧ assemble "CMD" [-1] = none ∧ assemble "BORDER" [8, 0, 0, 1, 1, 1] = none ∧
    assemble "PIXEL" [0, 0, 2] = none ∧ assemble "RECT" [2147483648, 0, 1, 1, 1] = none ∧
    assemble "INIT" [0] = none ∧ assemble "rect" [0, 0, 1, 1, 1] = none := by decide

theorem witness_AssemblerIsSoundAndComplete :
    assemble "BORDER" [7, -2147483648, 0, 1, 2147483647, 0] =
      some (.border 7 (-2147483648) 0 1 2147483647 false) ∧
    AssemblerForm "BORDER" [7, -2147483648, 0, 1, 2147483647, 0]
      (.border 7 (-2147483648) 0 1 2147483647 false) ∧
    (Instr.border 7 (-2147483648) 0 1 2147483647 false).wf = true :=
  ⟨by decide, ⟨rfl, rfl, by decide, by decide, by decide, by decide⟩, by decide⟩

theorem witness_StepRunsTheDecodedOperation :
    Submits (taking drawn [0x00000002#32]) [0x00000002#32] [] ∧ decode [0x00000002#32] = .ok .clear := by decide

theorem witness_StepTakesTheDecodeFault :
    Submits (taking drawn [0x00001002#32]) [0x00001002#32] [] ∧
    decode [0x00001002#32] = .error .reserved := by decide

theorem witness_TableWordRunsNext :
    drawn.hung = false ∧ drawn.fault = .none ∧ decodeTableWord 32 0x00000010 = some (.pixel 0 0 false) := by
  decide

theorem witness_IdleBlockKeepsItsState : drawn.host = [] ∧ drawn.hung = false := by decide

theorem witness_ResetEventRestartsTheBlock :
    ({ hungBlock with host := [.reset] } : State).host = .reset :: [] := by decide

/-- A block that has faulted with STYLE. -/
def faultedBlock : State := { drawn with fault := .style, last := .faulted }

theorem witness_FaultIsStickyUntilReset :
    faultedBlock.fault ≠ .none ∧ faultedBlock.hung = false ∧
    (taking faultedBlock [1#32]).host = .submit [1#32] :: [] ∧
    step faultedBlock = .next faultedBlock := ⟨by decide, by decide, by decide, rfl⟩

theorem witness_FaultsArePrecise :
    (taking drawn [0#32]).fault = .none ∧
    step (taking drawn [0#32]) = .next { drawn with fault := .illegalOp, last := .faulted } ∧
    ({ drawn with fault := .illegalOp, last := .faulted } : State).fault ≠ .none := ⟨by decide, rfl, by decide⟩

theorem witness_EveryOperationCompletesFaultsOrHangs : drawn.hung = false := by decide

theorem witness_FramebufferOperationsFaultBeforeInit :
    (fresh small []).ctrl = .uninitialized ∧
    Instr.showFrame ∈ [Instr.clear, .pixel 0 0 true, .rect 0 0 1 1 true, .fill 0 0 1 1 true,
      .dashed 0 0 1 1 true, .dotted 0 0 1 1 true, .border 7 0 0 1 1 true, .showFrame] ∧
    Instr.init ∈ [Instr.init, .cmd 0#8] := by decide

theorem witness_UninitBeforeStyleBeforeRange :
    let style : Descriptor := [0x00000715#32, 0x7FFFFFFF#32, 0#32, 5#32, 5#32]
    let range : Descriptor := [0x00000515#32, 0x7FFFFFFF#32, 0#32, 5#32, 5#32]
    (Submits (taking (fresh small []) style) style [] ∧
      decode style = .ok (.border 3 2147483647 0 5 5 true) ∧ (fresh small []).ctrl = .uninitialized) ∧
    (Submits (taking drawn style) style [] ∧ drawn.ctrl = .ready) ∧
    (Submits (taking drawn range) range [] ∧ decode range = .ok (.border 2 2147483647 0 5 5 true) ∧
      ¬ (InRange32 (2147483647 + 5 - 1) ∧ InRange32 (0 + 5 - 1))) := by decide

theorem witness_RangeFaults :
    (drawn.ctrl = .ready ∧ ¬ (InRange32 (2147483647 + 2 - 1) ∧ InRange32 (0 + 1 - 1))) ∧
    ¬ (InRange32 (-2147483648 + 1 - 1) ∧ InRange32 (-2147483648 + 0 - 1)) ∧ drawn.fault ≠ .range := by decide

theorem witness_RangeCheckBoundsEveryCoordinate :
    InRange32 2147483646 ∧ InRange32 (-2147483648) ∧ InRange32 2 ∧ InRange32 1 ∧
    InRange32 (2147483646 + 2 - 1) ∧ InRange32 (-2147483648 + 1 - 1) ∧
    (2147483647, -2147483648) ∈ outlinePixels 2147483646 (-2147483648) 2 1 1 ∧
    (2147483647, -2147483648) ∈ fillPixels 2147483646 (-2147483648) 2 1 := by decide

/-- The step that CLEAR takes a drawn block through. -/
def clearing : State := taking drawn [0x00000002#32]
def cleared : State := { drawn with fb := [], last := .ok }

theorem clearing_step : step clearing = .next cleared := rfl

theorem witness_StepKeepsTheBlockInvariant : clearing.Inv ∧ step clearing = .next cleared :=
  ⟨by decide, clearing_step⟩

/-- A block whose LOG ends with a flush that hung after its data control write. -/
def hungFlush : State :=
  { drawn with hung := true, log := [.sleep 100, .write 0x3C#7 [0x40#8] true .ack], host := [.reset] }

theorem witness_StepKeepsTheLogShape :
    hungFlush.LogShape ∧ ∃ t, step hungFlush = .next t := by
  refine ⟨fun e he => ?_, ⟨_, rfl⟩⟩
  rcases List.mem_cons.1 he with rfl | he
  · rfl
  · rcases List.mem_singleton.1 he with rfl
    exact ⟨rfl, .inr (.inl ⟨rfl, rfl⟩)⟩

/-- A block of one byte whose LOG holds one flush, about to clear. -/
def flushed : State :=
  { ready (params 1 8) [] with
    log := [.write 0x3C#7 [0x40#8] true .ack, .write 0x3C#7 [0x81#8] false .ack]
    host := [.submit [0x00000002#32]] }

theorem witness_StepKeepsFrameAfterControl :
    flushed.FrameFollowsControl ∧ step flushed = .next { flushed with host := [] } := by
  refine ⟨fun pre post h => .inr ⟨[0x81#8], .ack, [], ?_, rfl⟩, rfl⟩
  rcases pre with _ | ⟨a, _ | ⟨b, _ | ⟨c, pre⟩⟩⟩ <;> simp_all [flushed, ready, fresh, params, State.reset]

theorem witness_LogOnlyGrows : step clearing = .next cleared := clearing_step

theorem witness_ParametersAreConstant : step clearing = .next cleared := clearing_step

theorem witness_OnlyInitChangesCtrl :
    (exec .clear drawn = .next cleared ∧ Instr.clear ≠ .init) ∧
    drawn.hung = false ∧ ∃ t, exec .init drawn = .next t := ⟨⟨rfl, by decide⟩, by decide, _, rfl⟩

theorem witness_DrawingPerformsNoBusTraffic :
    Instr.border 7 0 0 1 1 true ∈ [Instr.clear, .pixel 0 0 true, .rect 0 0 1 1 true, .fill 0 0 1 1 true,
      .dashed 0 0 1 1 true, .dotted 0 0 1 1 true, .border 7 0 0 1 1 true] := by decide

theorem witness_FramebufferUnseenBeforeInit :
    (fresh small []).ctrl = .uninitialized ∧
    (∃ t, step (taking (fresh small (acks 22)) [1#32]) = .next t ∧ t.ctrl = .ready) ∧
    step { fresh small [] with hung := true } = .fault .busHung ∧
    step (taking { fresh small [] with fault := .uninit } [1#32]) = .refused .blockFaulted :=
  ⟨by decide, ⟨_, rfl, by decide⟩, rfl, rfl⟩

theorem witness_PixelMapIsABijection :
    small.wf ∧ inBounds small 15 7 = true ∧ inBounds small 0 0 = true ∧ 15 < small.fbSize := by decide

theorem witness_HostReadsTheBufferWhole :
    drawn.ctrl = .ready ∧ drawn.hung = false ∧ (fresh small []).ctrl = .uninitialized ∧
    15 < drawn.cfg.fbSize := by decide

theorem witness_ClearZeroFills : drawn.ctrl = .ready ∧ (fresh small []).ctrl = .uninitialized := by decide

theorem witness_PixelWritesOneBit :
    drawn.Inv ∧ drawn.ctrl = .ready ∧
    (0 ≤ (15 : Int) ∧ (15 : Int) < drawn.cfg.width ∧ 0 ≤ (7 : Int) ∧ (7 : Int) < drawn.cfg.height) ∧
    ¬ (0 ≤ (-1 : Int) ∧ (-1 : Int) < drawn.cfg.width ∧ 0 ≤ (7 : Int) ∧ (7 : Int) < drawn.cfg.height) := by
  decide

theorem witness_PixelLaws :
    drawn.Inv ∧ drawn.ctrl = .ready ∧ inBounds drawn.cfg 15 7 = true ∧ inBounds drawn.cfg 16 7 = false ∧
    ¬ ((15 : Int) = 15 ∧ (7 : Int) = 6) := by decide

theorem witness_OutlinesPaintTheirSets :
    drawn.Inv ∧ drawn.ctrl = .ready ∧
    ((0 < (2 : Int) ∨ 0 < (-3 : Int)) → InRange32 (2147483646 + 2 - 1) ∧ InRange32 (0 + -3 - 1)) := by decide

theorem witness_FillPaintsItsRegion :
    drawn.Inv ∧ drawn.ctrl = .ready ∧
    (0 < (2 : Int) → 0 < (1 : Int) → InRange32 (2147483646 + 2 - 1) ∧ InRange32 (0 + 1 - 1)) := by decide

theorem witness_BorderStylesSelectTheOutline : 3 ≤ (3 : Fin 8).val ∧ drawn.ctrl = .ready := by decide

theorem witness_OrderOfPixelWritesDoesNotMatter :
    small.wf ∧ Memory.wf small.fbSize drawn.fb ∧
    (∀ p : Int × Int, p ∈ [((0 : Int), (0 : Int)), (15, 7)] ↔ p ∈ [((15 : Int), (7 : Int)), (0, 0), (15, 7)]) := by
  refine ⟨by decide, by decide, fun p => ?_⟩
  simp only [List.mem_cons, List.not_mem_nil, or_false]
  tauto

theorem witness_ShapesEqualTheirLoops :
    drawn.Inv ∧ drawn.ctrl = .ready ∧
    ((0 < (4 : Int) ∨ 0 < (3 : Int)) → InRange32 (0 + 4 - 1) ∧ InRange32 (0 + 3 - 1)) ∧
    (0 < (4 : Int) → 0 < (3 : Int) → InRange32 (0 + 4 - 1) ∧ InRange32 (0 + 3 - 1)) := by decide

theorem witness_FillCountLaw :
    cleared.Inv ∧ cleared.ctrl = .ready ∧ (∀ a, Memory.read cleared.fb a = 0x00#8) ∧
    (0 < (4 : Int) → 0 < (30 : Int) → InRange32 (14 + 4 - 1) ∧ InRange32 (-2 + 30 - 1)) :=
  ⟨by decide, by decide, fun _ => rfl, by decide⟩

theorem witness_RectCountLaw :
    cleared.Inv ∧ cleared.ctrl = .ready ∧ (∀ a, Memory.read cleared.fb a = 0x00#8) ∧
    2 ≤ (2 : Int) ∧ 2 ≤ (8 : Int) ∧ RectInside cleared.cfg 14 0 2 8 ∧ InRange32 (14 + 2 - 1) ∧
    InRange32 (0 + 8 - 1) := ⟨by decide, by decide, fun _ => rfl, by decide, by decide, by decide, by decide, by decide⟩

theorem witness_DashedAndDottedCountLaws :
    cleared.Inv ∧ cleared.ctrl = .ready ∧ (∀ a, Memory.read cleared.fb a = 0x00#8) ∧
    2 ≤ (16 : Int) ∧ 2 ≤ (8 : Int) ∧ RectInside cleared.cfg 0 0 16 8 ∧ InRange32 (0 + 16 - 1) ∧
    InRange32 (0 + 8 - 1) := ⟨by decide, by decide, fun _ => rfl, by decide, by decide, by decide, by decide, by decide⟩

/-- The count law against the spec's own counts (43_shapes.md R85, R86; V7, V8). -/
theorem test_outline_count :
    outlineCount 4 4 2 = 7 ∧ outlineCount 6 3 2 = 8 ∧ outlineCount 128 64 2 = 191 ∧
    outlineCount 7 7 3 = 8 ∧ outlineCount 2 5 3 = 5 ∧ outlineCount 4 3 1 = 10 := by decide

theorem witness_AnswersAreInputsThenFreeDraws :
    (fresh small [none]).bus = none :: [] ∧ State.reset.bus = [] := by decide

theorem witness_CmdSendsOneByte :
    (drawReply (fresh small [some .ack])).1 = some .ack ∧
    (drawReply (ready small [some .fail])).1 = some .fail := by decide

theorem witness_ShowSendsTheWholeFrame :
    ((ready small (acks 2)).ctrl = .ready ∧ (drawReply (ready small (acks 2))).1 = some .ack ∧
      (drawReply (drawReply (ready small (acks 2))).2).1 = some .ack) ∧
    ((drawReply (ready small [some .ack, some .fail])).1 = some .ack ∧
      (drawReply (drawReply (ready small [some .ack, some .fail])).2).1 = some .fail) ∧
    (drawReply (ready small [some .fail])).1 = some .fail ∧ (fresh small []).ctrl = .uninitialized := by decide

theorem witness_InitBringsTheBlockToReady :
    ∀ k, k < (fresh small (acks 22)).cfg.initSeq.length → replyAt (fresh small (acks 22)) k = some .ack := by
  decide

theorem witness_InitStopsAtTheFirstFailure :
    ((fresh small (acks 21 ++ [some .fail])).cfg.initSeq[21]? = some 0xAF#8 ∧
      (∀ j, j < 21 → replyAt (fresh small (acks 21 ++ [some .fail])) j = some .ack) ∧
      replyAt (fresh small (acks 21 ++ [some .fail])) 21 = some .fail) ∧
    (ready small [some .fail]).cfg.initSeq[0]? = some 0xD5#8 ∧
    replyAt (ready small [some .fail]) 0 = some .fail := by decide

theorem witness_UnansweredWriteHangsTheBlock :
    ((drawReply (ready small [none])).1 = none ∧ (ready small [none]).ctrl = .ready) ∧
    ((drawReply (ready small [some .ack, none])).1 = some .ack ∧
      (drawReply (drawReply (ready small [some .ack, none])).2).1 = none) ∧
    (21 < (ready small (acks 21 ++ [none])).cfg.initSeq.length ∧
      (∀ j, j < 21 → replyAt (ready small (acks 21 ++ [none])) j = some .ack) ∧
      replyAt (ready small (acks 21 ++ [none])) 21 = none) ∧
    hungBlock.hung = true ∧ (∀ rest, hungBlock.host ≠ .reset :: rest) ∧
    ∃ t, exec (.cmd 0#8) (ready small [none]) = .next t ∧ t.hung ≠ (ready small [none]).hung :=
  ⟨by decide, by decide, by decide, by decide, by simp [hungBlock], _, rfl, by decide⟩

theorem witness_TransfersLeaveTheBufferAlone : Instr.cmd 0#8 ∈ [Instr.showFrame, .cmd 0#8] := by decide

theorem witness_TransportFailureIsNoFault :
    ∃ t, exec (.cmd 0#8) (ready small [some .fail]) = .next t ∧
      (ready small [some .fail]).last ≠ .transportFailure ∧ t.last = .transportFailure :=
  ⟨_, rfl, by decide, by decide⟩

end Sys2Proof.Tests
end

section
/-! PROOFS. What a whole bus transfer and a whole operation can do to the state, said once. -/

namespace Sys2Proof.Machine

/-- A run of bus writes: the frame of a transfer, and `hung` set exactly where a write is unanswered
(60_exceptions.md R102). -/
structure BusCall (s : State) (r : BusReply × State) : Prop where
  frame : BusFrame s r.2
  answered : r.1 ≠ none → r.2.hung = s.hung
  unanswered : r.1 = none → r.2.hung = true

/-- What is done before a run of bus writes, and does not hang, counts as part of it. -/
theorem BusCall.after {s u : State} {r : BusReply × State} (hu : BusFrame s u) (hh : u.hung = s.hung)
    (h : BusCall u r) : BusCall s r :=
  ⟨hu.trans h.frame, fun ha => (h.answered ha).trans hh, h.unanswered⟩

theorem busWrite_call (addr : BusAddr) (bytes : List Byte) (hold : Bool) (s : State) :
    BusCall s (busWrite addr bytes hold s) := by
  have hframe := busWrite_frame addr bytes hold s
  obtain ⟨bus, draws, ⟨a, h⟩ | h⟩ := busWrite_cases addr bytes hold s
  · exact ⟨hframe, fun _ => by rw [h], by simp [h]⟩
  · exact ⟨hframe, by simp [h], fun _ => by rw [h]⟩

theorem andThen_call {s : State} {r : BusReply × State} {k : State → BusReply × State}
    (hr : BusCall s r) (hk : ∀ t, BusCall t (k t)) : BusCall s (andThen r k) := by
  obtain ⟨hack, h⟩ | ⟨_, h⟩ := andThen_cases r k
  · rw [h]
    exact (hk r.2).after hr.frame (hr.answered (by simp [hack]))
  · rw [h]
    exact hr

theorem sendCommand_call (b : Byte) (s : State) : BusCall s (sendCommand b s) := busWrite_call _ _ _ _

theorem sendData_call (bytes : List Byte) (s : State) : BusCall s (sendData bytes s) :=
  andThen_call (busWrite_call _ _ _ _) fun t => busWrite_call _ _ _ t

theorem sendCommands_call (bs : List Byte) (s : State) : BusCall s (sendCommands bs s) := by
  induction bs generalizing s with
  | nil => exact ⟨BusFrame.rfl' s, fun _ => rfl, fun h => by simp [sendCommands] at h⟩
  | cons b bs ih => exact andThen_call (sendCommand_call b s) ih

/-- The two ways the transfer of CMD or SHOW ends (60_exceptions.md R98, R102). -/
inductive TransferEnd (s : State) : State → Prop where
  | answered (u : State) (a : BusResult) (hu : BusFrame s u) (hh : u.hung = s.hung) :
      TransferEnd s { u with last := statusOf a }
  | hangs (t : State) (ht : BusFrame s t) (hh : t.hung = true) : TransferEnd s t

/-- The three ways INIT ends (41_init.md R68, R70; 60_exceptions.md R102). -/
inductive InitEnd (s : State) : State → Prop where
  | ready (u : State) (hu : BusFrame s u) (hh : u.hung = s.hung) :
      InitEnd s { u with fb := Memory.zeroed u.cfg.fbSize, ctrl := .ready, last := .ok }
  | failed (u : State) (hu : BusFrame s u) (hh : u.hung = s.hung) :
      InitEnd s { u with ctrl := .uninitialized, last := .transportFailure }
  | hangs (t : State) (ht : BusFrame s t) (hh : t.hung = true) : InitEnd s t

theorem BusCall.transferEnd {s : State} {r : BusReply × State} (h : BusCall s r) :
    TransferEnd s (endTransfer r) := by
  obtain ⟨a, ha, he⟩ | ⟨hn, he⟩ := endTransfer_eq r
  · rw [he]
    exact .answered r.2 a h.frame (h.answered (by simp [ha]))
  · rw [he]
    exact .hangs r.2 h.frame (h.unanswered hn)

theorem BusCall.initEnd {s : State} {r : BusReply × State} (h : BusCall s r) : InitEnd s (endInit r) := by
  obtain ⟨reply, u⟩ := r
  match reply with
  | some .ack => exact .ready u h.frame (h.answered (by simp))
  | some .fail => exact .failed u h.frame (h.answered (by simp))
  | none => exact .hangs u h.frame (h.unanswered rfl)

theorem execInit_end (s : State) : ∃ t, exec .init s = .next t ∧ InitEnd s t :=
  ⟨_, rfl, BusCall.initEnd ((sendCommands_call _ _).after (sleepFor_frame s.cfg.settleMs s) rfl)⟩

theorem execCmd_end (b : Byte) (s : State) : ∃ t, exec (.cmd b) s = .next t ∧ TransferEnd s t :=
  ⟨_, rfl, (sendCommand_call b s).transferEnd⟩

/-- SHOW fails the READY check as a drawing operation does, or runs its transfer (44_flush.md R89). -/
theorem execShow_end (s : State) :
    ∃ t, exec .showFrame s = .next t ∧ (DrawEnd s t ∨ TransferEnd s t) := by
  obtain ⟨_, he⟩ | ⟨hu, he⟩ :=
    ifReady_cases s (.next (endTransfer (sendData (Memory.frame s.cfg.fbSize s.fb) s)))
  · exact ⟨_, he, .inr (sendData_call _ s).transferEnd⟩
  · exact ⟨_, he, .inl (.notReady hu)⟩

/-- Every operation that answers a next state ends as a drawing operation, as a transfer or, INIT alone, as
INIT does. -/
theorem exec_end {i : Instr} {s t : State} (h : exec i s = .next t) :
    DrawEnd s t ∨ TransferEnd s t ∨ (i = .init ∧ InitEnd s t) := by
  have drawn (hi : i.draws = true) : DrawEnd s t := by
    obtain ⟨t', h', he⟩ := exec_draw_end s hi
    cases h'.symm.trans h
    exact he
  cases i with
  | init =>
    obtain ⟨t', h', he⟩ := execInit_end s
    cases h'.symm.trans h
    exact .inr (.inr ⟨rfl, he⟩)
  | cmd b =>
    obtain ⟨t', h', he⟩ := execCmd_end b s
    cases h'.symm.trans h
    exact .inr (.inl he)
  | showFrame =>
    obtain ⟨t', h', he⟩ := execShow_end s
    cases h'.symm.trans h
    exact he.imp_right .inl
  | clear => exact .inl (drawn rfl)
  | pixel x y c => exact .inl (drawn rfl)
  | rect x y w h c => exact .inl (drawn rfl)
  | fill x y w h c => exact .inl (drawn rfl)
  | dashed x y w h c => exact .inl (drawn rfl)
  | dotted x y w h c => exact .inl (drawn rfl)
  | border st x y w h c => exact .inl (drawn rfl)

/-! ## The step by the host's next event -/

theorem step_of_reset {s : State} {rest : List HostEvent} (h : s.host = .reset :: rest) :
    step s = .next (restart s rest) := by
  rw [step, respond, h]

theorem step_of_idle {s : State} (h : s.host = []) :
    step s = if s.hung then .fault .busHung else .next s := by
  rw [step, respond, h]

theorem step_of_submit {s : State} {d : Descriptor} {rest : List HostEvent} (h : s.host = .submit d :: rest) :
    step s =
      if s.hung then .fault .busHung
      else if s.fault ≠ .none then .refused .blockFaulted
      else submit exec d { s with host := rest } := by
  rw [step, respond, h]

/-! ## CTRL, the parameters and LOG -/

theorem DrawEnd.ctrl_eq {s t : State} (h : DrawEnd s t) : t.ctrl = s.ctrl := by
  cases h <;> rfl

theorem TransferEnd.ctrl_eq {s t : State} (h : TransferEnd s t) : t.ctrl = s.ctrl := by
  cases h with
  | answered u a hu => exact hu.ctrl
  | hangs t ht => exact ht.ctrl

theorem DrawEnd.cfg_eq {s t : State} (h : DrawEnd s t) : t.cfg = s.cfg := by
  cases h <;> rfl

theorem TransferEnd.cfg_eq {s t : State} (h : TransferEnd s t) : t.cfg = s.cfg := by
  cases h with
  | answered u a hu => exact hu.cfg
  | hangs t ht => exact ht.cfg

theorem InitEnd.cfg_eq {s t : State} (h : InitEnd s t) : t.cfg = s.cfg := by
  cases h with
  | ready u hu => exact hu.cfg
  | failed u hu => exact hu.cfg
  | hangs t ht => exact ht.cfg

theorem exec_cfg {i : Instr} {s t : State} (h : exec i s = .next t) : t.cfg = s.cfg := by
  obtain he | he | ⟨_, he⟩ := exec_end h
  · exact he.cfg_eq
  · exact he.cfg_eq
  · exact he.cfg_eq

theorem exec_ctrl_of_ne_init {i : Instr} {s t : State} (h : exec i s = .next t) (hi : i ≠ .init) :
    t.ctrl = s.ctrl := by
  obtain he | he | ⟨h0, _⟩ := exec_end h
  · exact he.ctrl_eq
  · exact he.ctrl_eq
  · exact absurd h0 hi

/-- INIT raises nothing (41_init.md R70). -/
theorem InitEnd.fault_eq {s t : State} (h : InitEnd s t) : t.fault = s.fault := by
  cases h with
  | ready u hu => exact hu.fault
  | failed u hu => exact hu.fault
  | hangs t ht => exact ht.fault

/-- What each end of INIT says of `hung`, LAST and CTRL. -/
theorem InitEnd.hung_last_ctrl {s t : State} (h : InitEnd s t) :
    (t.hung = s.hung ∧ t.last = .ok ∧ t.ctrl = .ready) ∨
      (t.hung = s.hung ∧ t.last = .transportFailure ∧ t.ctrl = .uninitialized) ∨
      (t.hung = true ∧ t.last = s.last ∧ t.ctrl = s.ctrl) := by
  cases h with
  | ready u _ hh => exact .inl ⟨hh, rfl, rfl⟩
  | failed u _ hh => exact .inr (.inl ⟨hh, rfl, rfl⟩)
  | hangs t ht hh => exact .inr (.inr ⟨hh, ht.last, ht.ctrl⟩)

/-- Settles O30: every operation but INIT ends as a drawing operation or a transfer, and neither writes
CTRL. -/
theorem onlyInitChangesCtrl : Obligations.OnlyInitChangesCtrl := by
  refine ⟨fun i s t h hi => exec_ctrl_of_ne_init h hi, fun s t hh h => ?_⟩
  obtain ⟨t', h', he⟩ := execInit_end s
  cases h'.symm.trans h
  refine ⟨he.fault_eq, ?_⟩
  rw [← hh]
  exact he.hung_last_ctrl

/-- Settles O29: by what a step can do. -/
theorem parametersAreConstant : Obligations.ParametersAreConstant := by
  intro s t h
  obtain ⟨rest, _, rfl⟩ | ⟨_, _, rfl⟩ | ⟨d, rest, _, _, _, ⟨e, _, rfl⟩ | ⟨i, _, hx⟩⟩ := step_next h
  · rfl
  · rfl
  · rfl
  · exact (exec_cfg hx).trans rfl

/-- Settles O28: a step that is no reset runs at most one operation, which appends to LOG. -/
theorem logOnlyGrows : Obligations.LogOnlyGrows := by
  intro s t h
  obtain ⟨rest, hs, _⟩ | ⟨_, _, rfl⟩ | ⟨d, rest, _, _, _, ⟨e, _, rfl⟩ | ⟨i, _, hx⟩⟩ := step_next h
  · exact .inl ⟨rest, hs⟩
  · exact .inr ⟨[], (List.append_nil _).symm⟩
  · exact .inr ⟨[], (List.append_nil _).symm⟩
  · obtain ⟨es, hes, _⟩ := exec_appends hx
    exact .inr ⟨es, hes⟩

end Sys2Proof.Machine
end

section
/-! PROOFS. The block's invariant: it holds at reset and every step keeps it. -/

namespace Sys2Proof.Machine

/-- The two control bytes of the build differ, whatever the free distance (00_scope.md R10). -/
theorem ne_add_openGap (b : Byte) (gap : Fin 255) : b ≠ b + BitVec.ofNat 8 (gap.val + 1) := by
  have hgap := gap.isLt
  bv_omega

theorem build_wf : Config.build.wf :=
  ⟨by decide, by decide, by decide, ne_add_openGap Config.openCtrlCmd Config.openCtrlGap⟩

/-- Settles O24: LOG is empty at reset, FB lists nothing, and the build's parameters meet their
constraints. -/
theorem resetMeetsTheInvariants : Obligations.ResetMeetsTheInvariants := by
  refine ⟨⟨build_wf, Memory.wf_nil _, by decide, by decide⟩, ?_, ?_⟩
  · intro e he
    exact absurd he List.not_mem_nil
  · intro pre post h
    exact absurd h (by simp [State.reset])

/-- A transfer that writes no status keeps the invariant of a block that has not faulted: it may set
`hung`. -/
theorem BusFrame.inv {s t : State} (h : BusFrame s t) (hs : s.Inv) (hf : s.fault = .none) : t.Inv := by
  obtain ⟨hcfg, hfb, hlast, _⟩ := hs
  exact ⟨h.cfg ▸ hcfg, by rw [h.cfg, h.fb]; exact hfb, by rw [h.last, h.fault]; exact hlast,
    fun _ => h.fault.trans hf⟩

theorem State.Inv.cfg_wf {s : State} (hs : s.Inv) : s.cfg.wf := hs.1

theorem State.Inv.memory_wf {s : State} (hs : s.Inv) : Memory.wf s.cfg.fbSize s.fb := hs.2.1

/-- Completion of an operation keeps the invariant, whatever it leaves in FB in canonical form and in
CTRL. -/
theorem State.Inv.completed {s : State} (hs : s.Inv) (hf : s.fault = .none) {fb : Memory} (ctrl : Ctrl)
    {r : Status} (hfb : Memory.wf s.cfg.fbSize fb) (hr : r ≠ .faulted) :
    State.Inv { s with fb := fb, ctrl := ctrl, last := r } := by
  obtain ⟨hcfg, _, _, hhung⟩ := hs
  exact ⟨hcfg, hfb, by simp [hf, hr], hhung⟩

/-- Fault entry keeps the invariant of a block that is not hung (60_exceptions.md R94). -/
theorem State.Inv.faulted {s : State} (hs : s.Inv) (hh : s.hung = false) {code : FaultCode}
    (hc : code ≠ .none) : State.Inv { s with fault := code, last := .faulted } := by
  obtain ⟨hcfg, hfb, _, _⟩ := hs
  exact ⟨hcfg, hfb, by simp [hc], by simp [hh]⟩

theorem statusOf_ne_faulted (a : BusResult) : statusOf a ≠ .faulted := by
  cases a <;> decide

theorem decodeFaultCode_ne_none (e : DecodeFault) : decodeFaultCode e ≠ .none := by
  cases e <;> decide

section
variable {s t : State} (hs : s.Inv) (hh : s.hung = false) (hf : s.fault = .none)
include hs hh hf

theorem DrawEnd.inv (h : DrawEnd s t) : t.Inv := by
  cases h with
  | done fb _ hfb =>
    have hwf : Memory.wf s.cfg.fbSize fb := by
      obtain rfl | ⟨x, y, c, rfl⟩ | ⟨p, c, rfl⟩ := hfb
      · exact Memory.zeroed_wf _
      · exact setPixel_wf x y c hs.cfg_wf hs.memory_wf
      · exact paintSet_wf _ p c _
    exact hs.completed hf s.ctrl hwf (by decide)
  | notReady _ => exact hs.faulted hh (by decide)
  | raised code _ hc => exact hs.faulted hh (by rcases hc with rfl | rfl <;> decide)

omit hh in
theorem TransferEnd.inv (h : TransferEnd s t) : t.Inv := by
  cases h with
  | answered u a hu _ =>
    have hi := hu.inv hs hf
    exact hi.completed (hu.fault.trans hf) u.ctrl hi.memory_wf (statusOf_ne_faulted a)
  | hangs t ht _ => exact ht.inv hs hf

omit hh in
theorem InitEnd.inv (h : InitEnd s t) : t.Inv := by
  cases h with
  | ready u hu _ =>
    exact (hu.inv hs hf).completed (hu.fault.trans hf) .ready (Memory.zeroed_wf _) (by decide)
  | failed u hu _ =>
    have hi := hu.inv hs hf
    exact hi.completed (hu.fault.trans hf) .uninitialized hi.memory_wf (by decide)
  | hangs t ht _ => exact ht.inv hs hf

theorem exec_inv {i : Instr} (h : exec i s = .next t) : t.Inv := by
  obtain he | he | ⟨_, he⟩ := exec_end h
  · exact he.inv hs hh hf
  · exact he.inv hs hf
  · exact he.inv hs hf

end

/-- A reset brings the invariant about: FB is tabulated anew (70_reset_and_hazards.md R107). -/
theorem restart_inv {s : State} (hcfg : s.cfg.wf) (rest : List HostEvent) : (restart s rest).Inv :=
  ⟨hcfg, Memory.tabulate_wf _ _, by simp, by simp⟩

/-- Settles O25: by what a step can do, and by the ways an operation of a block neither hung nor faulted can
end. -/
theorem stepKeepsTheBlockInvariant : Obligations.StepKeepsTheBlockInvariant := by
  intro s t hs h
  obtain ⟨rest, _, rfl⟩ | ⟨_, _, rfl⟩ | ⟨d, rest, _, hh, hf, hd⟩ := step_next h
  · exact restart_inv hs.cfg_wf rest
  · exact hs
  · have hs' : State.Inv { s with host := rest } := hs
    obtain ⟨e, _, rfl⟩ | ⟨i, _, hx⟩ := hd
    · exact hs'.faulted hh (decodeFaultCode_ne_none e)
    · exact exec_inv hs' hh hf hx

end Sys2Proof.Machine
end

section
/-! PROOFS. Before INIT nothing looks at FB: the bus carries no byte of it, and every operation that would read
it fails the READY check first. -/

namespace Sys2Proof.Machine

/-- The outcome of a run of bus writes with FB replaced. -/
def withFb (m : Memory) (r : BusReply × State) : BusReply × State := (r.1, { r.2 with fb := m })

theorem busWrite_withFb (addr : BusAddr) (bytes : List Byte) (hold : Bool) (s : State) (m : Memory) :
    busWrite addr bytes hold { s with fb := m } = withFb m (busWrite addr bytes hold s) := by
  have hdraw : drawReply { s with fb := m } = withFb m (drawReply s) := by
    obtain ⟨bus, draws, h⟩ := drawReply_eq s
    rw [drawReply_congr (t := { s with fb := m }) (s := s) rfl rfl, withFb, h]
  rw [busWrite, busWrite, hdraw]
  cases hr : (drawReply s).1 <;> simp [withFb, afterReply, hr]

theorem andThen_withFb {m : Memory} {k : State → BusReply × State}
    (hk : ∀ t, k { t with fb := m } = withFb m (k t)) (r : BusReply × State) :
    andThen (withFb m r) k = withFb m (andThen r k) := by
  obtain ⟨reply, u⟩ := r
  match reply with
  | some .ack => exact hk u
  | some .fail => rfl
  | none => rfl

theorem sendCommand_withFb (b : Byte) (s : State) (m : Memory) :
    sendCommand b { s with fb := m } = withFb m (sendCommand b s) := busWrite_withFb _ _ _ s m

theorem sendCommands_withFb (bs : List Byte) (s : State) (m : Memory) :
    sendCommands bs { s with fb := m } = withFb m (sendCommands bs s) := by
  induction bs generalizing s with
  | nil => rfl
  | cons b bs ih =>
    rw [sendCommands, sendCommands, sendCommand_withFb]
    exact andThen_withFb ih _

/-! ## Outcomes alike but for FB -/

/-- Two outcomes that tell nothing of FB apart (10_state.md R29): the same stop, or next states that differ in
FB alone and not at all once READY. -/
inductive AlikeButFb :
    Host.Outcome State Fault Refusal → Host.Outcome State Fault Refusal → Prop where
  | same (o : Host.Outcome State Fault Refusal) : AlikeButFb o o
  | unready (t : State) (m : Memory) (h : t.ctrl = .uninitialized) :
      AlikeButFb (.next t) (.next { t with fb := m })

theorem endTransfer_alikeButFb {r : BusReply × State} (m : Memory) (h : r.2.ctrl = .uninitialized) :
    AlikeButFb (.next (endTransfer r)) (.next (endTransfer (withFb m r))) := by
  obtain ⟨reply, u⟩ := r
  cases reply with
  | some a => exact .unready (complete (statusOf a) u) m h
  | none => exact .unready u m h

theorem endInit_alikeButFb {r : BusReply × State} (m : Memory) (h : r.2.ctrl = .uninitialized) :
    AlikeButFb (.next (endInit r)) (.next (endInit (withFb m r))) := by
  obtain ⟨reply, u⟩ := r
  match reply with
  | some .ack => exact .same _
  | some .fail => exact .unready (complete .transportFailure { u with ctrl := .uninitialized }) m rfl
  | none => exact .unready u m h

section
variable {s : State} (m : Memory) (hs : s.ctrl = .uninitialized)
include hs

theorem ifReady_of_uninitialized (k : Host.Outcome State Fault Refusal) :
    ifReady s k = raiseFault .uninit s := by
  rw [ifReady, hs]

theorem raiseFault_alikeButFb (code : FaultCode) :
    AlikeButFb (raiseFault code s) (raiseFault code { s with fb := m }) :=
  .unready { s with fault := code, last := .faulted } m hs

theorem ifReady_alikeButFb (k k' : Host.Outcome State Fault Refusal) :
    AlikeButFb (ifReady s k) (ifReady { s with fb := m } k') := by
  rw [ifReady_of_uninitialized hs, ifReady_of_uninitialized (s := { s with fb := m }) hs]
  exact raiseFault_alikeButFb m hs .uninit

theorem exec_alikeButFb (i : Instr) : AlikeButFb (exec i s) (exec i { s with fb := m }) := by
  cases i with
  | init =>
    have hb : exec .init { s with fb := m } =
        .next (endInit (withFb m (sendCommands s.cfg.initSeq (sleepFor s.cfg.settleMs s)))) := by
      rw [← sendCommands_withFb]; rfl
    rw [hb]
    exact endInit_alikeButFb m ((sendCommands_frame _ _).ctrl.trans hs)
  | cmd b =>
    have hb : exec (.cmd b) { s with fb := m } = .next (endTransfer (withFb m (sendCommand b s))) := by
      rw [← sendCommand_withFb]; rfl
    rw [hb]
    exact endTransfer_alikeButFb m ((sendCommand_frame b s).ctrl.trans hs)
  | clear => exact ifReady_alikeButFb m hs _ _
  | showFrame => exact ifReady_alikeButFb m hs _ _
  | pixel x y c => exact ifReady_alikeButFb m hs _ _
  | rect x y w h c => exact ifReady_alikeButFb m hs _ _
  | fill x y w h c => exact ifReady_alikeButFb m hs _ _
  | dashed x y w h c => exact ifReady_alikeButFb m hs _ _
  | dotted x y w h c => exact ifReady_alikeButFb m hs _ _
  | border st x y w h c => exact ifReady_alikeButFb m hs _ _

theorem submit_alikeButFb (d : Descriptor) :
    AlikeButFb (submit exec d s) (submit exec d { s with fb := m }) := by
  unfold submit
  cases decode d with
  | error e => exact raiseFault_alikeButFb m hs _
  | ok i => exact exec_alikeButFb m hs i

theorem step_alikeButFb : AlikeButFb (step s) (step { s with fb := m }) := by
  by_cases he : s.host = []
  · rw [step_of_idle he, step_of_idle (s := { s with fb := m }) he]
    split_ifs
    · exact .same _
    · exact .unready s m hs
  · obtain ⟨e, rest, he⟩ := List.exists_cons_of_ne_nil he
    cases e with
    | reset =>
      rw [step_of_reset he, step_of_reset (s := { s with fb := m }) he]
      exact .same _
    | submit d =>
      rw [step_of_submit he, step_of_submit (s := { s with fb := m }) he]
      split_ifs
      · exact .same _
      · exact .same _
      · exact submit_alikeButFb (s := { s with host := rest }) m hs d

end

/-- What the likeness says where the first outcome is a next state. -/
theorem AlikeButFb.next {t : State} {o : Host.Outcome State Fault Refusal} (h : AlikeButFb (.next t) o) :
    ∃ t', o = .next t' ∧ SameButFb t t' ∧ (t.ctrl = .ready → t' = t) := by
  cases h with
  | same => exact ⟨t, rfl, rfl, fun _ => rfl⟩
  | unready _ m hu => exact ⟨_, rfl, rfl, fun hr => by simp [hu] at hr⟩

theorem AlikeButFb.fault {r : Fault} {o : Host.Outcome State Fault Refusal} (h : AlikeButFb (.fault r) o) :
    o = .fault r := by
  cases h; rfl

theorem AlikeButFb.refused {r : Refusal} {o : Host.Outcome State Fault Refusal}
    (h : AlikeButFb (.refused r) o) : o = .refused r := by
  cases h; rfl

theorem hostRead_of_uninitialized {s : State} (hs : s.ctrl = .uninitialized) :
    s.hostRead = .error .frameUnreadable := by
  rw [State.hostRead, hs]
  split_ifs <;> rfl

/-- Settles O32: a step of an UNINITIALIZED block looks at FB nowhere, and the host's read is refused. -/
theorem framebufferUnseenBeforeInit : Obligations.FramebufferUnseenBeforeInit := by
  intro s m hs
  have key := step_alikeButFb m hs
  refine ⟨fun t h => ?_, fun r h => ?_, fun r h => ?_, ?_⟩
  · exact (h ▸ key).next
  · exact (h ▸ key).fault
  · exact (h ▸ key).refused
  · rw [hostRead_of_uninitialized hs]
    exact hostRead_of_uninitialized (s := { s with fb := m }) hs

end Sys2Proof.Machine
end

section
/-! PROOFS. What the host sees of the state: STATUS, the values after reset, and FB. -/

namespace Sys2Proof.Machine

/-- STATUS bit by bit (10_state.md R24). -/
theorem getLsbD_status (s : State) (i : Nat) :
    s.status.getLsbD i =
      if i < 2 then (statusBits s.last).getLsbD i
      else if i = 2 then decide (s.ctrl = .ready)
      else if i = 3 then false
      else (faultBits s.fault).getLsbD (i - 4) := by
  have happ : s.status.getLsbD i =
      ((((0#24 ++ faultBits s.fault) ++ 0#1) ++ ctrlBit s.ctrl) ++ statusBits s.last).getLsbD i := rfl
  have hctrl : (ctrlBit s.ctrl)[0] = decide (s.ctrl = .ready) := by cases s.ctrl <;> rfl
  rw [happ]
  simp only [BitVec.getLsbD_append, BitVec.getLsbD_zero]
  obtain h | rfl | rfl | h : i < 2 ∨ i = 2 ∨ i = 3 ∨ 4 ≤ i := by omega
  · simp [h]
  · simp [hctrl]
  · simp
  · have hbit : i - 2 - 1 - 1 = i - 4 := by omega
    simp only [hbit, show ¬ i < 2 by omega, show ¬ i - 2 < 1 by omega, show ¬ i - 2 - 1 < 1 by omega,
      show i ≠ 2 by omega, show i ≠ 3 by omega, if_false]
    split_ifs with h4
    · rfl
    · exact (BitVec.getLsbD_of_ge _ _ (by omega)).symm

theorem status_last (s : State) : s.status.extractLsb' 0 2 = statusBits s.last := by
  apply BitVec.eq_of_getLsbD_eq
  intro i hi
  rw [BitVec.getLsbD_extractLsb', Nat.zero_add, getLsbD_status, if_pos hi]
  simp [hi]

theorem status_fault (s : State) : s.status.extractLsb' 4 4 = faultBits s.fault := by
  apply BitVec.eq_of_getLsbD_eq
  intro i hi
  rw [BitVec.getLsbD_extractLsb', getLsbD_status, if_neg (by omega), if_neg (by omega), if_neg (by omega),
    Nat.add_sub_cancel_left]
  simp [hi]

theorem status_high (s : State) : s.status.extractLsb' 8 24 = 0#24 := by
  apply BitVec.eq_of_getLsbD_eq
  intro i hi
  rw [BitVec.getLsbD_extractLsb', getLsbD_status, if_neg (by omega), if_neg (by omega), if_neg (by omega),
    BitVec.getLsbD_of_ge _ _ (by omega)]
  simp

/-- Settles O14: field by field, from STATUS bit by bit. -/
theorem statusWordFields : Obligations.StatusWordFields := by
  intro s
  refine ⟨?_, ?_, ?_, ?_, status_high s⟩
  · rw [status_last]
    cases s.last <;> rfl
  · rw [getLsbD_status]
    simp
  · rw [getLsbD_status]
    simp
  · rw [status_fault]
    cases s.fault <;> rfl

/-- Settles O15: the fields of `State.reset`, and STATUS computed from them. -/
theorem resetValues : Obligations.ResetValues :=
  ⟨rfl, rfl, rfl, rfl, by decide, rfl, rfl⟩

theorem hostRead_of_ready {s : State} (hs : s.ctrl = .ready) (hh : s.hung = false) :
    s.hostRead = .ok (Memory.frame s.cfg.fbSize s.fb) := by
  rw [State.hostRead, hh, hs]; rfl

/-- Settles O34: the host reads the frame, whose bytes are those of FB. -/
theorem hostReadsTheBufferWhole : Obligations.HostReadsTheBufferWhole := by
  refine ⟨fun s hs hh => ⟨_, hostRead_of_ready hs hh, Memory.frame_length _ _, fun i hi => ?_⟩,
    fun s hs => hostRead_of_uninitialized hs⟩
  have hlen : i < (Memory.frame s.cfg.fbSize s.fb).length := by rwa [Memory.frame_length]
  rw [List.getElem?_eq_getElem hlen, Memory.frame_getElem]

end Sys2Proof.Machine
end

section
/-! PROOFS. The shape of LOG: whatever an operation appends is framed as the block frames it. -/

namespace Sys2Proof.Machine

/-- A command write has the shape of 40_transport.md R61. -/
theorem eventShape_command (c : Config) (b : Byte) (r : BusResult) :
    EventShape c (.write c.devAddr [c.ctrlCmd, b] false r) :=
  ⟨rfl, .inl ⟨rfl, b, rfl⟩⟩

/-- A data control write has the shape of 40_transport.md R62. -/
theorem eventShape_control (c : Config) (r : BusResult) :
    EventShape c (.write c.devAddr [c.ctrlData] true r) :=
  ⟨rfl, .inr (.inl ⟨rfl, rfl⟩)⟩

/-- The write of the whole frame has the shape of 44_flush.md R89. -/
theorem eventShape_frame (c : Config) (m : Memory) (r : BusResult) :
    EventShape c (.write c.devAddr (Memory.frame c.fbSize m) false r) :=
  ⟨rfl, .inr (.inr ⟨rfl, Memory.frame_length _ _⟩)⟩

/-- Whatever one operation appends to LOG has the shape. -/
theorem Appends.eventShape {s t : State} {es : List BusEvent} (h : Appends s t es) :
    ∀ e ∈ es, EventShape s.cfg e := by
  cases h with
  | commands es hes =>
    intro e he
    obtain rfl | ⟨b, r, rfl⟩ := hes e he
    · exact rfl
    · exact eventShape_command s.cfg b r
  | controlFails => simp [eventShape_control]
  | frameHangs _ => simp [eventShape_control]
  | frameSent r => simp [eventShape_control, eventShape_frame]

theorem exec_logShape {i : Instr} {s t : State} (hs : s.LogShape) (h : exec i s = .next t) :
    t.LogShape := by
  obtain ⟨es, hlog, hes⟩ := exec_appends h
  intro e he
  rw [exec_cfg h]
  rw [hlog] at he
  exact (List.mem_append.1 he).elim (hs e) (hes.eventShape e)

theorem restart_logShape (s : State) (rest : List HostEvent) : (restart s rest).LogShape :=
  fun _ he => absurd he List.not_mem_nil

/-- Settles O26: a reset empties LOG, an idle or faulting step leaves it, and an operation appends only
events of the shape. -/
theorem stepKeepsTheLogShape : Obligations.StepKeepsTheLogShape := by
  intro s t hs h
  obtain ⟨rest, _, rfl⟩ | ⟨_, _, rfl⟩ | ⟨d, rest, _, _, _, ⟨e, _, rfl⟩ | ⟨i, _, hx⟩⟩ := step_next h
  · exact restart_logShape s rest
  · exact hs
  · exact hs
  · have hs' : State.LogShape { s with host := rest } := hs
    exact exec_logShape hs' hx

end Sys2Proof.Machine
end

section
/-! PROOFS. The pixel map and its inverse. -/

namespace Sys2Proof.Machine

/-- FB_SIZE is WIDTH bytes for each page (00_scope.md R8). -/
theorem fbSize_eq_width_mul_numPages {c : Config} (hc : c.wf) : c.fbSize = c.width * c.numPages := by
  obtain ⟨_, _, h8, _⟩ := hc
  exact Nat.mul_div_assoc _ (Nat.dvd_of_mod_eq_zero h8)

/-- Every bit of FB holds an in-bounds pixel (20_memory.md R35). -/
theorem inBounds_pixelOf {c : Config} {i b : Nat} (hc : c.wf) (hi : i < c.fbSize) (hb : b < 8) :
    inBounds c (pixelOf c i b).1 (pixelOf c i b).2 = true := by
  have hcol : i % c.width < c.width := Nat.mod_lt _ hc.1
  have hpage : i / c.width < c.height / 8 :=
    Nat.div_lt_of_lt_mul (by rwa [fbSize_eq_width_mul_numPages hc] at hi)
  simp only [inBounds_iff, pixelOf]
  omega

/-- Settles O33: `pixelOf` is a two-sided inverse of the pixel map, and each lands in the other's range. -/
theorem pixelMapIsABijection : Obligations.PixelMapIsABijection := by
  intro c hc
  refine ⟨fun x y hx0 hx hy0 hy => ?_, fun i b hi hb => ?_⟩
  · have hin : inBounds c x y = true := inBounds_iff.2 ⟨hx0, hx, hy0, hy⟩
    have hinv := pixelOf_pixelByte hin
    exact ⟨pixelByte_lt hc hin, pixelBit_lt y, congrArg Prod.fst hinv, congrArg Prod.snd hinv⟩
  · exact ⟨inBounds_pixelOf hc hi hb, pixelByte_pixelOf hb⟩

end Sys2Proof.Machine
end

section
/-! PROOFS. The decoder: its rows, the fields of a control word, and when a descriptor decodes. -/

namespace Sys2Proof.Machine

/-! ## The row of an opcode -/

/-- A row is selected by its own opcode alone (30_encoding.md R49). -/
theorem rowOf_eq_some {opc : BitVec 8} {r : OpcodeRow} (h : rowOf opc = some r) :
    r ∈ opcodeRows ∧ fieldOpc r.value = opc :=
  ⟨List.mem_of_find?_eq_some h, by simpa using List.find?_some h⟩

/-- The unassigned opcodes (30_encoding.md R51). -/
theorem rowOf_eq_none_iff (opc : BitVec 8) :
    rowOf opc = none ↔ opc.toNat = 0 ∨ (0x05 ≤ opc.toNat ∧ opc.toNat ≤ 0x0F) ∨ 0x16 ≤ opc.toNat := by
  revert opc
  decide

/-- The word counts of the assigned opcodes (30_encoding.md R49). -/
theorem words_of_rowOf {opc : BitVec 8} {r : OpcodeRow} (h : rowOf opc = some r) :
    (1 ≤ opc.toNat ∧ opc.toNat ≤ 4 ∧ r.words = 1) ∨ (opc.toNat = 0x10 ∧ r.words = 3) ∨
      (0x11 ≤ opc.toNat ∧ opc.toNat ≤ 0x15 ∧ r.words = 5) := by
  obtain ⟨hr, rfl⟩ := rowOf_eq_some h
  revert r
  decide

/-! ## The fields of a control word -/

/-- A control word is its fields, the highest first (30_encoding.md R47). -/
theorem word_eq_append_fields (d : Word) :
    d = d.extractLsb' 24 8 ++ fieldCmdb d ++ d.extractLsb' 12 4 ++ fieldStyle d ++
      BitVec.ofBool (fieldColor d) ++ fieldOpc d := by
  have hcolor : BitVec.ofBool (fieldColor d) = d.extractLsb' 8 1 := by
    apply BitVec.eq_of_getLsbD_eq
    intro i hi
    obtain rfl : i = 0 := by omega
    simp [fieldColor]
  rw [hcolor, fieldCmdb, fieldStyle, fieldOpc]
  iterate 5 rw [BitVec.extractLsb'_append_extractLsb'_eq_extractLsb']
  · exact BitVec.extractLsb'_eq_self.symm
  all_goals rfl

/-- Control words are equal field by field. -/
theorem word_eq_iff_fields {u v : Word} :
    u = v ↔ fieldOpc u = fieldOpc v ∧ u.extractLsb' 12 4 = v.extractLsb' 12 4 ∧
      u.extractLsb' 24 8 = v.extractLsb' 24 8 ∧ fieldColor u = fieldColor v ∧
      fieldStyle u = fieldStyle v ∧ fieldCmdb u = fieldCmdb v := by
  refine ⟨fun h => by simp [h], fun ⟨hopc, hlow, hhigh, hcolor, hstyle, hcmdb⟩ => ?_⟩
  rw [word_eq_append_fields u, word_eq_append_fields v, hopc, hlow, hhigh, hcolor, hstyle, hcmdb]

theorem fieldOpc_and (u v : Word) : fieldOpc (u &&& v) = fieldOpc u &&& fieldOpc v :=
  BitVec.extractLsb'_and

theorem fieldColor_and (u v : Word) : fieldColor (u &&& v) = (fieldColor u && fieldColor v) :=
  BitVec.getLsbD_and

theorem fieldStyle_and (u v : Word) : fieldStyle (u &&& v) = fieldStyle u &&& fieldStyle v :=
  BitVec.extractLsb'_and

theorem fieldCmdb_and (u v : Word) : fieldCmdb (u &&& v) = fieldCmdb u &&& fieldCmdb v :=
  BitVec.extractLsb'_and

/-- The reserved bits of a control word, and every field its opcode does not use, are 0
(30_encoding.md R47, R52). -/
def UnusedFieldsClear (d0 : Word) : Prop :=
  d0.extractLsb' 12 4 = 0#4 ∧ d0.extractLsb' 24 8 = 0#8 ∧
    (fieldColor d0 = false ∨ 4 < (fieldOpc d0).toNat) ∧
    (fieldStyle d0 = 0#3 ∨ (fieldOpc d0).toNat = 0x15) ∧
    (fieldCmdb d0 = 0#8 ∨ (fieldOpc d0).toNat = 4)

/-- The value of a row is its opcode alone. -/
theorem value_fields {r : OpcodeRow} (hr : r ∈ opcodeRows) :
    fieldColor r.value = false ∧ fieldStyle r.value = 0#3 ∧ r.value.extractLsb' 12 4 = 0#4 ∧
      fieldCmdb r.value = 0#8 ∧ r.value.extractLsb' 24 8 = 0#8 := by
  revert r
  decide

/-- The mask of a row covers the opcode, the reserved bits and the fields the opcode does not use
(30_encoding.md R49). -/
theorem mask_fields {r : OpcodeRow} (hr : r ∈ opcodeRows) :
    fieldOpc r.mask = BitVec.allOnes 8 ∧
      fieldColor r.mask = decide ((fieldOpc r.value).toNat ≤ 4) ∧
      fieldStyle r.mask = (if (fieldOpc r.value).toNat = 0x15 then 0#3 else BitVec.allOnes 3) ∧
      r.mask.extractLsb' 12 4 = BitVec.allOnes 4 ∧
      fieldCmdb r.mask = (if (fieldOpc r.value).toNat = 4 then 0#8 else BitVec.allOnes 8) ∧
      r.mask.extractLsb' 24 8 = BitVec.allOnes 8 := by
  revert r
  decide

/-- A field under a mask that covers it, or does not. -/
theorem and_ite_allOnes_eq_zero_iff {n : Nat} (x : BitVec n) (p : Prop) [Decidable p] :
    (x &&& if p then 0#n else BitVec.allOnes n) = 0#n ↔ x = 0#n ∨ p := by
  by_cases hp : p
  · simp [hp]
  · rw [if_neg hp, BitVec.and_allOnes, or_iff_left hp]

/-- A control word matches the row of its opcode exactly when its unused fields are 0. -/
theorem masked_eq_value_iff {d0 : Word} {r : OpcodeRow} (h : rowOf (fieldOpc d0) = some r) :
    d0 &&& r.mask = r.value ↔ UnusedFieldsClear d0 := by
  obtain ⟨hr, hopc⟩ := rowOf_eq_some h
  obtain ⟨vcolor, vstyle, vlow, vcmdb, vhigh⟩ := value_fields hr
  obtain ⟨mopc, mcolor, mstyle, mlow, mcmdb, mhigh⟩ := mask_fields hr
  have hcolor : (fieldColor d0 && decide ((fieldOpc d0).toNat ≤ 4)) = false ↔
      fieldColor d0 = false ∨ 4 < (fieldOpc d0).toNat := by
    rw [Bool.and_eq_false_iff, decide_eq_false_iff_not, not_le]
  rw [word_eq_iff_fields, fieldOpc_and, fieldColor_and, fieldStyle_and, fieldCmdb_and,
    BitVec.extractLsb'_and, BitVec.extractLsb'_and, mopc, mcolor, mstyle, mlow, mcmdb, mhigh, hopc, vcolor,
    vstyle, vlow, vcmdb, vhigh, hcolor, and_ite_allOnes_eq_zero_iff, and_ite_allOnes_eq_zero_iff]
  simp only [BitVec.and_allOnes, true_and]
  exact Iff.rfl

/-! ## When a descriptor decodes (30_encoding.md R50) -/

theorem decode_nil : decode [] = .error .length := rfl

/-- The decoder's answer to a descriptor whose opcode is assigned. -/
theorem decode_of_rowOf {d0 : Word} {ds : Descriptor} {r : OpcodeRow} (h : rowOf (fieldOpc d0) = some r) :
    decode (d0 :: ds) =
      if ds.length + 1 ≠ r.words then .error .length
      else if d0 &&& r.mask ≠ r.value then .error .reserved
      else .ok (readOperands r.op d0 (d0 :: ds)) := by
  simp only [decode, h, List.length_cons]

theorem decode_of_rowOf_eq_none {d0 : Word} {ds : Descriptor} (h : rowOf (fieldOpc d0) = none) :
    decode (d0 :: ds) = .error .illegalOp := by
  simp only [decode, h]

/-- ILLEGAL_OP is the answer to an unassigned opcode, and to no other. -/
theorem decode_eq_illegalOp_iff {d0 : Word} {ds : Descriptor} :
    decode (d0 :: ds) = .error .illegalOp ↔ rowOf (fieldOpc d0) = none := by
  refine ⟨fun h => ?_, decode_of_rowOf_eq_none⟩
  cases hr : rowOf (fieldOpc d0) with
  | none => rfl
  | some r =>
    rw [decode_of_rowOf hr] at h
    split_ifs at h <;> simp at h

theorem decode_of_length_ne {d0 : Word} {ds : Descriptor} {r : OpcodeRow} (h : rowOf (fieldOpc d0) = some r)
    (hlen : ds.length + 1 ≠ r.words) : decode (d0 :: ds) = .error .length := by
  rw [decode_of_rowOf h, if_pos hlen]

theorem decode_of_not_unusedFieldsClear {d0 : Word} {ds : Descriptor} {r : OpcodeRow}
    (h : rowOf (fieldOpc d0) = some r) (hlen : ds.length + 1 = r.words) (hc : ¬ UnusedFieldsClear d0) :
    decode (d0 :: ds) = .error .reserved := by
  rw [decode_of_rowOf h, if_neg (not_not.2 hlen), if_pos (mt (masked_eq_value_iff h).1 hc)]

theorem decode_of_unusedFieldsClear {d0 : Word} {ds : Descriptor} {r : OpcodeRow}
    (h : rowOf (fieldOpc d0) = some r) (hlen : ds.length + 1 = r.words) (hc : UnusedFieldsClear d0) :
    decode (d0 :: ds) = .ok (readOperands r.op d0 (d0 :: ds)) := by
  rw [decode_of_rowOf h, if_neg (not_not.2 hlen), if_neg (not_not.2 ((masked_eq_value_iff h).2 hc))]

/-- What a descriptor that decodes is. -/
theorem decode_eq_ok {d : Descriptor} {i : Instr} (h : decode d = .ok i) :
    ∃ d0 ds r, d = d0 :: ds ∧ rowOf (fieldOpc d0) = some r ∧ ds.length + 1 = r.words ∧
      UnusedFieldsClear d0 ∧ i = readOperands r.op d0 (d0 :: ds) := by
  cases d with
  | nil => simp [decode_nil] at h
  | cons d0 ds =>
    cases hr : rowOf (fieldOpc d0) with
    | none => simp [decode_of_rowOf_eq_none hr] at h
    | some r =>
      rw [decode_of_rowOf hr] at h
      split_ifs at h with hlen hmask
      exact ⟨d0, ds, r, rfl, hr, not_not.1 hlen, (masked_eq_value_iff hr).1 (not_not.1 hmask),
        (Except.ok.inj h).symm⟩

end Sys2Proof.Machine
end

section
/-! PROOFS. Decoding after encoding and encoding after decoding. -/

namespace Sys2Proof.Machine

/-! ## Operand words -/

theorem fits32_iff {v : Int} : fits32 v = true ↔ InRange32 v := by
  simp [fits32, InRange32]

/-- An operand in range reads back from its word (00_scope.md R13, R15). -/
theorem sext32_operandWord {v : Int} (hv : InRange32 v) : sext32 (operandWord v) = v := by
  obtain ⟨hlo, hhi⟩ := hv
  exact BitVec.toInt_ofInt_eq_self (by decide) hlo (by omega)

theorem operandWord_sext32 (v : Word) : operandWord (sext32 v) = v := BitVec.ofInt_toInt

theorem fits32_sext32 (v : Word) : fits32 (sext32 v) = true :=
  fits32_iff.2 ⟨BitVec.le_toInt v, Int.le_sub_one_of_lt (BitVec.toInt_lt (x := v))⟩

theorem geometryFits_iff {x y w h : Int} :
    geometryFits x y w h = true ↔ InRange32 x ∧ InRange32 y ∧ InRange32 w ∧ InRange32 h := by
  simp only [geometryFits, Bool.and_eq_true, fits32_iff, and_assoc]

theorem pixel_wf_iff {x y : Int} {c : Bool} : (Instr.pixel x y c).wf = true ↔ InRange32 x ∧ InRange32 y := by
  simp only [Instr.wf, Bool.and_eq_true, fits32_iff]

/-- What the decoder reads fits, since it reads words. -/
theorem readOperands_wf (op : Opcode) (d0 : Word) (d : Descriptor) : (readOperands op d0 d).wf = true := by
  cases op <;> simp [readOperands, Instr.wf, geometryFits, operand, fits32_sext32]

/-! ## Decoding what was encoded -/

/-- Every operation's descriptor has the shape of its row (30_encoding.md R46, R49). -/
theorem encodedShape (i : Instr) : Laws.EncodedShape.Statement i := by
  cases i with
  | init => exact Laws.EncodedShape.init
  | clear => exact Laws.EncodedShape.clear
  | showFrame => exact Laws.EncodedShape.showFrame
  | cmd b => exact Laws.EncodedShape.cmd b
  | pixel x y c => exact Laws.EncodedShape.pixel x y c
  | rect x y w h c => exact Laws.EncodedShape.rect x y w h c
  | fill x y w h c => exact Laws.EncodedShape.fill x y w h c
  | dashed x y w h c => exact Laws.EncodedShape.dashed x y w h c
  | dotted x y w h c => exact Laws.EncodedShape.dotted x y w h c
  | border s x y w h c => exact Laws.EncodedShape.border s x y w h c

/-- The operand words of a pixel read back. -/
theorem operand_pxlWords {x y : Int} (d0 : Word) (hx : InRange32 x) (hy : InRange32 y) :
    operand (d0 :: pxlWords x y) 1 = x ∧ operand (d0 :: pxlWords x y) 2 = y :=
  ⟨sext32_operandWord hx, sext32_operandWord hy⟩

/-- The operand words of a shape read back. -/
theorem operand_geoWords {x y w h : Int} (d0 : Word) (hf : geometryFits x y w h = true) :
    operand (d0 :: geoWords x y w h) 1 = x ∧ operand (d0 :: geoWords x y w h) 2 = y ∧
      operand (d0 :: geoWords x y w h) 3 = w ∧ operand (d0 :: geoWords x y w h) 4 = h := by
  obtain ⟨hx, hy, hw, hh⟩ := geometryFits_iff.1 hf
  exact ⟨sext32_operandWord hx, sext32_operandWord hy, sext32_operandWord hw, sext32_operandWord hh⟩

/-- The row of an encoded operation reads its operands back. -/
theorem readOperands_encode {i : Instr} (hi : i.wf = true) {r : OpcodeRow} {d0 : Word} {ds : Descriptor}
    (he : encode i = d0 :: ds) (hr : rowOf (fieldOpc d0) = some r) :
    readOperands r.op d0 (d0 :: ds) = i := by
  cases i
  all_goals
    cases he
    rw [Laws.fieldOpc_controlWord] at hr
    cases hr
  case init => rfl
  case clear => rfl
  case showFrame => rfl
  case cmd b => simp [readOperands, Laws.fieldCmdb_controlWord]
  case pixel x y c =>
    obtain ⟨hx, hy⟩ := pixel_wf_iff.1 hi
    simp [readOperands, operand_pxlWords _ hx hy, Laws.fieldColor_controlWord]
  case border s x y w h c =>
    simp [readOperands, operand_geoWords _ hi, Laws.fieldColor_controlWord, Laws.fieldStyle_controlWord]
  all_goals simp [readOperands, operand_geoWords _ hi, Laws.fieldColor_controlWord]

/-- Settles O1: the descriptor has its row's shape, so it decodes, and the row reads the operands back. -/
theorem decodeAfterEncode : Obligations.DecodeAfterEncode := by
  intro i hi
  obtain ⟨r, d0, ds, he, hr, hlen, hmask⟩ := encodedShape i
  rw [he] at hlen ⊢
  rw [decode_of_unusedFieldsClear hr hlen ((masked_eq_value_iff hr).1 hmask), readOperands_encode hi he hr]

/-! ## Encoding what was decoded -/

/-- A control word with its reserved bits 0 is made of its other fields. -/
theorem controlWord_fields {d0 : Word} (hlow : d0.extractLsb' 12 4 = 0#4) (hhigh : d0.extractLsb' 24 8 = 0#8) :
    controlWord (fieldOpc d0) (fieldColor d0) (fieldStyle d0).toFin (fieldCmdb d0) = d0 := by
  conv_rhs => rw [word_eq_append_fields d0, hlow, hhigh]
  rfl

theorem pxlWords_operand {d0 : Word} {ds : Descriptor} (h : ds.length = 2) :
    pxlWords (operand (d0 :: ds) 1) (operand (d0 :: ds) 2) = ds := by
  obtain ⟨x, y, rfl⟩ := List.length_eq_two.1 h
  simp [pxlWords, operand, operandWord_sext32]

theorem geoWords_operand {d0 : Word} {ds : Descriptor} (h : ds.length = 4) :
    geoWords (operand (d0 :: ds) 1) (operand (d0 :: ds) 2) (operand (d0 :: ds) 3) (operand (d0 :: ds) 4) =
      ds := by
  match ds, h with
  | [x, y, w, k], _ => simp [geoWords, operand, operandWord_sext32]

/-- The operation a row reads has the descriptor it was read from. -/
theorem encode_readOperands {d0 : Word} {ds : Descriptor} {r : OpcodeRow} (hr : rowOf (fieldOpc d0) = some r)
    (hlen : ds.length + 1 = r.words) (hc : UnusedFieldsClear d0) :
    encode (readOperands r.op d0 (d0 :: ds)) = d0 :: ds := by
  obtain ⟨hmem, hopc⟩ := rowOf_eq_some hr
  obtain ⟨hlow, hhigh, hcolor, hstyle, hcmdb⟩ := hc
  have hword := controlWord_fields hlow hhigh
  rw [← hopc] at hword hcolor hstyle hcmdb
  have hctl (h4 : (fieldOpc r.value).toNat < 4) : controlWord (fieldOpc r.value) false 0 0#8 = d0 := by
    rwa [hcolor.resolve_right (by omega), hstyle.resolve_right (by omega), hcmdb.resolve_right (by omega)]
      at hword
  have hshape (h4 : 4 < (fieldOpc r.value).toNat) (h15 : (fieldOpc r.value).toNat ≠ 0x15) :
      controlWord (fieldOpc r.value) (fieldColor d0) 0 0#8 = d0 := by
    rwa [hstyle.resolve_right h15, hcmdb.resolve_right (by omega)] at hword
  have hnil (h : r.words = 1) : [] = ds := (List.eq_nil_of_length_eq_zero (by omega)).symm
  have hpxl (h : r.words = 3) := pxlWords_operand (d0 := d0) (ds := ds) (by omega)
  have hgeo (h : r.words = 5) := geoWords_operand (d0 := d0) (ds := ds) (by omega)
  simp only [opcodeRows, List.mem_cons, List.not_mem_nil, or_false] at hmem
  obtain rfl | rfl | rfl | rfl | rfl | rfl | rfl | rfl | rfl | rfl := hmem
  · exact congrArg₂ List.cons (hctl (by decide)) (hnil rfl)
  · exact congrArg₂ List.cons (hctl (by decide)) (hnil rfl)
  · exact congrArg₂ List.cons (hctl (by decide)) (hnil rfl)
  · rw [hcolor.resolve_right (by decide), hstyle.resolve_right (by decide)] at hword
    exact congrArg₂ List.cons hword (hnil rfl)
  · exact congrArg₂ List.cons (hshape (by decide) (by decide)) (hpxl rfl)
  · exact congrArg₂ List.cons (hshape (by decide) (by decide)) (hgeo rfl)
  · exact congrArg₂ List.cons (hshape (by decide) (by decide)) (hgeo rfl)
  · exact congrArg₂ List.cons (hshape (by decide) (by decide)) (hgeo rfl)
  · exact congrArg₂ List.cons (hshape (by decide) (by decide)) (hgeo rfl)
  · rw [hcmdb.resolve_right (by decide)] at hword
    exact congrArg₂ List.cons hword (hgeo rfl)

/-- Settles O2: what decodes was read by a row, and the row's operation has that descriptor. -/
theorem encodeAfterDecode : Obligations.EncodeAfterDecode := by
  intro d i h
  obtain ⟨d0, ds, r, rfl, hr, hlen, hc, rfl⟩ := decode_eq_ok h
  exact ⟨encode_readOperands hr hlen hc, readOperands_wf _ _ _⟩

end Sys2Proof.Machine
end

section
/-! PROOFS. Submitted descriptors that do not decode. -/

namespace Sys2Proof.Machine

/-- A descriptor that does not decode faults with the decoder's code and does nothing else
(60_exceptions.md R94). -/
theorem step_of_decode_error {s : State} {d : Descriptor} {rest : List HostEvent} {e : DecodeFault}
    (hs : Submits s d rest) (hd : decode d = .error e) :
    step s = .next (faultedBy s rest (decodeFaultCode e)) := by
  obtain ⟨hh, hf, hhost⟩ := hs
  rw [step_of_submit hhost, if_neg (by simp [hh]), if_neg (by simp [hf]), submit, hd]
  rfl

/-- Settles O11: a block that takes the submission raises the decoder's fault. -/
theorem stepTakesTheDecodeFault : Obligations.StepTakesTheDecodeFault :=
  fun _ _ _ _ hs hd => step_of_decode_error hs hd

/-- Of 256 opcodes 246 are unassigned: 12 below 0x16, and every one from there on (30_encoding.md R51). -/
theorem countP_unassigned :
    (List.range 256).countP (fun n => n == 0 || (5 ≤ n && n ≤ 15) || 22 ≤ n) = 246 := by
  have hsplit : List.range 256 = List.range 22 ++ List.range' 22 234 := by
    rw [List.range_eq_range', List.range_eq_range', List.range'_append_1]
  have hlow : (List.range 22).countP (fun n => n == 0 || (5 ≤ n && n ≤ 15) || 22 ≤ n) = 12 := by decide
  have hhigh : (List.range' 22 234).countP (fun n => n == 0 || (5 ≤ n && n ≤ 15) || 22 ≤ n) =
      (List.range' 22 234).length := by
    refine List.countP_eq_length.2 fun n hn => ?_
    simp [(List.mem_range'_1.1 hn).1]
  rw [hsplit, List.countP_append, hlow, hhigh, List.length_range']

/-- Settles O3: the rows leave exactly those opcodes unassigned. -/
theorem unassignedOpcodesFault : Obligations.UnassignedOpcodesFault := by
  refine ⟨fun s d0 ds rest hs hopc => ?_, fun d0 ds hd => ?_, countP_unassigned⟩
  · exact step_of_decode_error hs (decode_of_rowOf_eq_none ((rowOf_eq_none_iff _).2 hopc))
  · exact (rowOf_eq_none_iff _).1 (decode_eq_illegalOp_iff.1 hd)

/-- An assigned opcode has a row (30_encoding.md R49). -/
theorem exists_rowOf {opc : BitVec 8}
    (h : (1 ≤ opc.toNat ∧ opc.toNat ≤ 4) ∨ (0x10 ≤ opc.toNat ∧ opc.toNat ≤ 0x15)) :
    ∃ r, rowOf opc = some r := by
  refine Option.ne_none_iff_exists'.1 fun hnone => ?_
  have := (rowOf_eq_none_iff opc).1 hnone
  omega

/-- Settles O4: the row of an assigned opcode gives its word count. -/
theorem wrongWordCountFaults : Obligations.WrongWordCountFaults := by
  refine ⟨fun s d0 ds rest hs hlen => ?_, fun s rest hs => ?_⟩
  · obtain ⟨r, hr⟩ := exists_rowOf (opc := fieldOpc d0) (by omega)
    have hwords := words_of_rowOf hr
    exact step_of_decode_error hs (decode_of_length_ne hr (by omega))
  · exact step_of_decode_error hs decode_nil

/-- Settles O5: past the length, the decoder asks only that the unused fields be 0. -/
theorem reservedAndUnusedBitsFault : Obligations.ReservedAndUnusedBitsFault := by
  intro s d0 ds rest hs hlen
  obtain ⟨r, hr⟩ := exists_rowOf (opc := fieldOpc d0) (by omega)
  have hwords := words_of_rowOf hr
  have hlen : ds.length + 1 = r.words := by omega
  refine ⟨fun hset => ?_, fun hclear => ⟨_, decode_of_unusedFieldsClear hr hlen hclear⟩⟩
  refine step_of_decode_error hs (decode_of_not_unusedFieldsClear hr hlen ?_)
  rintro ⟨hlow, hhigh, hcolor, hstyle, hcmdb⟩
  obtain h | h | ⟨h, hopc⟩ | ⟨h, hopc⟩ | ⟨h, hopc⟩ := hset
  · exact h hlow
  · exact h hhigh
  · exact hcolor.elim (by simp [h]) (by omega)
  · exact hstyle.elim h hopc
  · exact hcmdb.elim h hopc

/-- Settles O6: the decoder run on the ten words. -/
theorem writtenWordsDecode : Obligations.WrittenWordsDecode := by
  unfold Obligations.WrittenWordsDecode
  decide

end Sys2Proof.Machine
end

section
/-! PROOFS. Descriptors stored as bytes (30_encoding.md R56). -/

namespace Sys2Proof.Machine

theorem wordBytes_length (v : Word) : (wordBytes v).length = 4 := rfl

theorem descriptorBytes_cons (v : Word) (d : Descriptor) :
    descriptorBytes (v :: d) = wordBytes v ++ descriptorBytes d := rfl

theorem descriptorBytes_length (d : Descriptor) : (descriptorBytes d).length = 4 * d.length := by
  induction d with
  | nil => rfl
  | cons v d ih =>
    rw [descriptorBytes_cons, List.length_append, wordBytes_length, ih, List.length_cons]
    omega

/-- Byte `j` of a word is its bits `8j+7` to `8j`. -/
theorem wordBytes_getElem? (v : Word) {j : Nat} (hj : j < 4) :
    (wordBytes v)[j]? = some (v.extractLsb' (8 * j) 8) := by
  match j, hj with
  | 0, _ => rfl
  | 1, _ => rfl
  | 2, _ => rfl
  | 3, _ => rfl

/-- Byte `4k+j` of a stored descriptor is byte `j` of its word `k`. -/
theorem descriptorBytes_getElem? (d : Descriptor) {k j : Nat} (hk : k < d.length) (hj : j < 4) :
    (descriptorBytes d)[4 * k + j]? = some (d[k].extractLsb' (8 * j) 8) := by
  induction d generalizing k with
  | nil => exact absurd hk (Nat.not_lt_zero k)
  | cons v d ih =>
    rw [descriptorBytes_cons]
    cases k with
    | zero =>
      rw [Nat.mul_zero, Nat.zero_add, List.getElem?_append_left hj, wordBytes_getElem? v hj]
      rfl
    | succ k =>
      have hpos : 4 * (k + 1) + j - 4 = 4 * k + j := by omega
      rw [List.getElem?_append_right (by rw [wordBytes_length]; omega), wordBytes_length, hpos,
        ih (Nat.lt_of_succ_lt_succ hk)]
      rfl

/-- The four bytes of a word make the word again. -/
theorem append_wordBytes (v : Word) :
    v.extractLsb' 24 8 ++ v.extractLsb' 16 8 ++ v.extractLsb' 8 8 ++ v.extractLsb' 0 8 = v := by
  iterate 3 rw [BitVec.extractLsb'_append_extractLsb'_eq_extractLsb']
  · exact BitVec.extractLsb'_eq_self
  all_goals rfl

theorem wordsOfBytes_descriptorBytes (d : Descriptor) : wordsOfBytes (descriptorBytes d) = some d := by
  induction d with
  | nil => rfl
  | cons v d ih =>
    rw [descriptorBytes_cons, wordBytes]
    simp only [List.cons_append, List.nil_append, wordsOfBytes, ih, append_wordBytes]

/-- Settles O7: word by word, by induction on the descriptor. -/
theorem storedDescriptorBytes : Obligations.StoredDescriptorBytes :=
  fun d => ⟨descriptorBytes_length d, fun _ _ hk hj => descriptorBytes_getElem? d hk hj,
    wordsOfBytes_descriptorBytes d⟩

end Sys2Proof.Machine
end

section
/-! PROOFS. The assembler and the pseudo-operations (30_encoding.md R57, R58). -/

namespace Sys2Proof.Machine

/-! ## Operands -/

theorem colorOperand_eq_some_iff {v : Int} {c : Bool} : colorOperand v = some c ↔ v = colorNumber c := by
  unfold colorOperand
  split
  · cases c <;> simp [colorNumber]
  · cases c <;> simp [colorNumber]
  next h0 h1 => cases c <;> simpa [colorNumber]

theorem styleOperand_eq_some_iff {v : Int} {s : Fin 8} : styleOperand v = some s ↔ v = s.val := by
  unfold styleOperand
  split_ifs with h0 h8
  · simp only [Option.some.injEq, Fin.ext_iff]
    omega
  · have := s.isLt
    simp only [false_iff]
    omega
  · simp only [false_iff]
    omega

theorem byteOperand_eq_some_iff {v : Int} {b : Byte} : byteOperand v = some b ↔ v = b.toNat := by
  unfold byteOperand
  have hb := b.isLt
  simp only [Bool.and_eq_true, decide_eq_true_eq]
  split_ifs with h
  · rw [Option.some.injEq, ← BitVec.toNat_inj, BitVec.toNat_ofInt]
    omega
  · simp only [false_iff]
    omega

theorem assembled_eq_some_iff {i j : Instr} : assembled i = some j ↔ i.wf = true ∧ i = j := by
  simp [assembled]

/-- A colored operation assembles from a color of 0 or 1 and operands that fit. -/
theorem assembled_colored_eq_some_iff {v : Int} {f : Bool → Instr} {i : Instr} :
    (colorOperand v).bind (fun c => assembled (f c)) = some i ↔
      ∃ c, v = colorNumber c ∧ (f c).wf = true ∧ f c = i := by
  simp only [Option.bind_eq_some_iff, colorOperand_eq_some_iff, assembled_eq_some_iff]

/-! ## Forms -/

/-- The operations that have a form are those whose operands fit. -/
theorem exists_assemblerForm_iff {i : Instr} : (∃ m ops, AssemblerForm m ops i) ↔ i.wf = true := by
  cases i with
  | pixel x y c => simp [AssemblerForm, pixel_wf_iff]
  | _ => simp [AssemblerForm, Instr.wf, geometryFits_iff]

/-- An operation has the form it assembles from. -/
theorem assemblerForm_of_assemble {m : String} {ops : List Int} {i : Instr} (h : assemble m ops = some i) :
    AssemblerForm m ops i := by
  unfold assemble at h
  split at h
  case h_1 | h_2 | h_3 =>
    cases h
    exact ⟨rfl, rfl⟩
  case h_4 =>
    obtain ⟨b, hb, rfl⟩ := Option.map_eq_some_iff.1 h
    exact ⟨rfl, by rw [byteOperand_eq_some_iff.1 hb]⟩
  case h_5 =>
    obtain ⟨c, rfl, hwf, rfl⟩ := assembled_colored_eq_some_iff.1 h
    exact ⟨rfl, rfl, pixel_wf_iff.1 hwf⟩
  case h_6 | h_7 | h_8 | h_9 =>
    obtain ⟨c, rfl, hwf, rfl⟩ := assembled_colored_eq_some_iff.1 h
    exact ⟨rfl, rfl, geometryFits_iff.1 hwf⟩
  case h_10 =>
    obtain ⟨s, hs, h⟩ := Option.bind_eq_some_iff.1 h
    obtain ⟨c, rfl, hwf, rfl⟩ := assembled_colored_eq_some_iff.1 h
    exact ⟨rfl, by rw [styleOperand_eq_some_iff.1 hs], geometryFits_iff.1 hwf⟩
  case h_11 => cases h

/-- An operation assembles from its form. -/
theorem assemble_of_assemblerForm {m : String} {ops : List Int} {i : Instr} (h : AssemblerForm m ops i) :
    assemble m ops = some i := by
  have hwf := exists_assemblerForm_iff.1 ⟨m, ops, h⟩
  cases i
  case init | clear | showFrame =>
    obtain ⟨rfl, rfl⟩ := h
    rfl
  case cmd b =>
    obtain ⟨rfl, rfl⟩ := h
    exact Option.map_eq_some_iff.2 ⟨b, byteOperand_eq_some_iff.2 rfl, rfl⟩
  case pixel | rect | fill | dashed | dotted =>
    obtain ⟨rfl, rfl, _⟩ := h
    exact assembled_colored_eq_some_iff.2 ⟨_, rfl, hwf, rfl⟩
  case border s x y w h c =>
    obtain ⟨rfl, rfl, _⟩ := h
    exact Option.bind_eq_some_iff.2
      ⟨s, styleOperand_eq_some_iff.2 rfl, assembled_colored_eq_some_iff.2 ⟨c, rfl, hwf, rfl⟩⟩

theorem assemble_eq_some_iff {m : String} {ops : List Int} {i : Instr} :
    assemble m ops = some i ↔ AssemblerForm m ops i :=
  ⟨assemblerForm_of_assemble, assemble_of_assemblerForm⟩

/-- Settles O8: an operation assembles from its form alone, and has one exactly when its operands fit. -/
theorem assemblerIsSoundAndComplete : Obligations.AssemblerIsSoundAndComplete := by
  refine ⟨fun m ops i => assemble_eq_some_iff, fun m ops i h => ?_, fun i hi => ?_⟩
  · exact decodeAfterEncode i (exists_assemblerForm_iff.1 ⟨m, ops, assemble_eq_some_iff.1 h⟩)
  · obtain ⟨m, ops, h⟩ := exists_assemblerForm_iff.2 hi
    exact ⟨m, ops, assemble_eq_some_iff.2 h⟩

/-- Settles O9: by the four arms of `expand`. -/
theorem pseudoOperationsExpand : Obligations.PseudoOperationsExpand :=
  ⟨fun _ _ _ => rfl, fun _ _ _ => rfl, fun _ _ => rfl, fun _ _ _ _ _ _ _ _ _ _ => rfl⟩

end Sys2Proof.Machine
end

section
/-! PROOFS. Transport: the one write of CMD, and the frame that follows an acknowledged data control write. -/

namespace Sys2Proof.Machine

/-- CMD by the answer its write draws (40_transport.md R66). -/
theorem execCmd_answered (b : Byte) {s : State} {a : BusResult} (h : (drawReply s).1 = some a) :
    exec (.cmd b) s = .next { withRepliesDrawn 1 s with
      log := s.log ++ [.write s.cfg.devAddr [s.cfg.ctrlCmd, b] false a]
      last := statusOf a } := by
  rw [exec, execCmd, sendCommand, busWrite_answered h]
  rfl

/-- Settles O46: an answered CMD completes with the status of its one write. -/
theorem cmdSendsOneByte : Obligations.CmdSendsOneByte :=
  fun _ b => ⟨execCmd_answered b, execCmd_answered b⟩

/-! ## The frame after a data control write -/

/-- The LOG entry of an acknowledged data control write (40_transport.md R62). -/
def controlAcked (c : Config) : BusEvent := .write c.devAddr [c.ctrlData] true .ack

/-- `State.FrameFollowsControl` of any run of LOG entries: it composes where a state's LOG grows, since a
run that begins in a block that is not hung leaves no control write without its frame. -/
def FramedLog (c : Config) (hung : Bool) (es : List BusEvent) : Prop :=
  ∀ pre post, es = pre ++ controlAcked c :: post →
    (post = [] ∧ hung = true) ∨
      ∃ frame r rest, post = .write c.devAddr frame false r :: rest ∧ frame.length = c.fbSize

theorem frameFollowsControl_iff (s : State) : s.FrameFollowsControl ↔ FramedLog s.cfg s.hung s.log := Iff.rfl

theorem FramedLog.append {c : Config} {hung : Bool} {log es : List BusEvent} (hlog : FramedLog c false log)
    (hes : FramedLog c hung es) : FramedLog c hung (log ++ es) := by
  intro pre post h
  obtain ⟨pre', _, he⟩ | ⟨mid, hl, he⟩ := List.append_eq_append_iff.1 h
  · exact hes pre' post he
  · cases mid with
    | nil => exact hes [] post he.symm
    | cons e mid =>
      obtain ⟨rfl, rfl⟩ := List.cons.inj he
      obtain ⟨_, hf⟩ | ⟨frame, r, rest, rfl, hlen⟩ := hlog pre mid hl
      · cases hf
      · exact .inr ⟨frame, r, rest ++ es, rfl, hlen⟩

theorem framedLog_of_not_mem {c : Config} {hung : Bool} {es : List BusEvent} (h : controlAcked c ∉ es) :
    FramedLog c hung es := by
  rintro pre post rfl
  exact absurd (List.mem_append_right pre List.mem_cons_self) h

/-- An acknowledged data control write before a run: the run begins with the frame, or is empty in a hung
block. -/
theorem FramedLog.control_cons {c : Config} {hung : Bool} {es : List BusEvent} (hes : FramedLog c hung es)
    (h : (es = [] ∧ hung = true) ∨
      ∃ frame r rest, es = .write c.devAddr frame false r :: rest ∧ frame.length = c.fbSize) :
    FramedLog c hung (controlAcked c :: es) := by
  intro pre post he
  cases pre with
  | nil =>
    obtain rfl := (List.cons.inj he).2
    exact h
  | cons e pre => exact hes pre post (List.cons.inj he).2

/-- Whatever one operation appends to LOG is framed by itself. -/
theorem Appends.framedLog {s t : State} {es : List BusEvent} (h : Appends s t es) :
    FramedLog s.cfg t.hung es := by
  cases h with
  | commands es hes =>
    refine framedLog_of_not_mem fun hmem => ?_
    obtain he | ⟨b, r, he⟩ := hes _ hmem
    · simp [controlAcked] at he
    · simp [controlAcked] at he
  | controlFails => exact framedLog_of_not_mem (by simp [controlAcked])
  | frameHangs hh => exact (framedLog_of_not_mem List.not_mem_nil).control_cons (.inl ⟨rfl, hh⟩)
  | frameSent r =>
    exact (framedLog_of_not_mem (by simp [controlAcked])).control_cons
      (.inr ⟨_, r, [], rfl, Memory.frame_length _ _⟩)

theorem exec_frameFollowsControl {i : Instr} {s t : State} (hs : s.FrameFollowsControl) (hh : s.hung = false)
    (h : exec i s = .next t) : t.FrameFollowsControl := by
  obtain ⟨es, hlog, hes⟩ := exec_appends h
  rw [frameFollowsControl_iff, hh] at hs
  rw [frameFollowsControl_iff, exec_cfg h, hlog]
  exact hs.append hes.framedLog

theorem restart_frameFollowsControl (s : State) (rest : List HostEvent) :
    (restart s rest).FrameFollowsControl :=
  framedLog_of_not_mem List.not_mem_nil

/-- Settles O27: a reset empties LOG, an idle or faulting step leaves it, and an operation runs only in a
block that is not hung and appends a framed run. -/
theorem stepKeepsFrameAfterControl : Obligations.StepKeepsFrameAfterControl := by
  intro s t hs h
  obtain ⟨rest, _, rfl⟩ | ⟨_, _, rfl⟩ | ⟨d, rest, _, hh, _, ⟨e, _, rfl⟩ | ⟨i, _, hx⟩⟩ := step_next h
  · exact restart_frameFollowsControl s rest
  · exact hs
  · exact hs
  · have hs' : State.FrameFollowsControl { s with host := rest } := hs
    exact exec_frameFollowsControl hs' hh hx

end Sys2Proof.Machine
end

section
/-! PROOFS. INIT (41_init.md R68 to R71): where the command loop stands after its first acknowledged bytes, and
how it ends from there. -/

namespace Sys2Proof.Machine

/-- `s` once `n` answers have been drawn and the entries `es` appended to LOG: what answered writes leave. -/
def afterWrites (n : Nat) (es : List BusEvent) (s : State) : State :=
  { withRepliesDrawn n s with log := s.log ++ es }

@[simp] theorem afterWrites_cfg (n : Nat) (es : List BusEvent) (s : State) :
    (afterWrites n es s).cfg = s.cfg := rfl

theorem afterReplies_add (m n : Nat) (s : State) :
    afterReplies (m + n) s = afterReplies n (afterReplies m s) := by
  induction m generalizing s with
  | zero => rw [Nat.zero_add, afterReplies]
  | succ m ih => rw [Nat.succ_add, afterReplies, afterReplies, ih]

/-- Drawing goes on from where the earlier writes left it. -/
theorem afterReplies_afterWrites (m n : Nat) (es : List BusEvent) (s : State) :
    (afterReplies n (afterWrites m es s)).bus = (afterReplies (m + n) s).bus ∧
      (afterReplies n (afterWrites m es s)).draws = (afterReplies (m + n) s).draws := by
  rw [afterReplies_add]
  exact afterReplies_congr (s := afterReplies m s) (t := afterWrites m es s) rfl rfl n

theorem replyAt_afterWrites (m k : Nat) (es : List BusEvent) (s : State) :
    replyAt (afterWrites m es s) k = replyAt s (m + k) := by
  obtain ⟨hbus, hdraws⟩ := afterReplies_afterWrites m k es s
  rw [replyAt, replyAt, drawReply_congr hbus hdraws]

theorem afterWrites_afterWrites (m n : Nat) (es fs : List BusEvent) (s : State) :
    afterWrites n fs (afterWrites m es s) = afterWrites (m + n) (es ++ fs) s := by
  obtain ⟨hbus, hdraws⟩ := afterReplies_afterWrites m n es s
  simp only [afterWrites, withRepliesDrawn] at hbus hdraws ⊢
  rw [hbus, hdraws, List.append_assoc]

/-- An answered command write (40_transport.md R61). -/
theorem sendCommand_answered (b : Byte) {s : State} {a : BusResult} (h : replyAt s 0 = some a) :
    sendCommand b s = (some a, afterWrites 1 [.write s.cfg.devAddr [s.cfg.ctrlCmd, b] false a] s) :=
  busWrite_answered h

/-- The command loop runs on past bytes that are all acknowledged. -/
theorem sendCommands_append_of_acked {bs : List Byte} (cs : List Byte) {s : State}
    (h : ∀ j, j < bs.length → replyAt s j = some .ack) :
    sendCommands (bs ++ cs) s = sendCommands cs (afterWrites bs.length (acknowledged s.cfg bs) s) := by
  induction bs generalizing s with
  | nil => rw [acknowledged, List.map_nil, afterWrites, List.append_nil]; rfl
  | cons b bs ih =>
    rw [List.cons_append, sendCommands, sendCommand_answered b (h 0 (Nat.succ_pos _)), andThen, ih]
    · rw [afterWrites_afterWrites, Nat.add_comm]; rfl
    · intro j hj
      rw [replyAt_afterWrites, Nat.add_comm]
      exact h (j + 1) (Nat.succ_lt_succ hj)

/-- The command loop stops at a byte that fails (41_init.md R70). -/
theorem sendCommands_cons_of_failed (b : Byte) (bs : List Byte) {s : State} (h : replyAt s 0 = some .fail) :
    sendCommands (b :: bs) s =
      (some .fail, afterWrites 1 [.write s.cfg.devAddr [s.cfg.ctrlCmd, b] false .fail] s) := by
  rw [sendCommands, sendCommand_answered b h, andThen]

/-- INIT once its first `k` bytes are acknowledged: the settle delay and their writes stand in LOG, and the
loop goes on with the bytes that are left (41_init.md R68, R69). -/
theorem execInit_of_acked {s : State} {k : Nat} (hk : k ≤ s.cfg.initSeq.length)
    (h : ∀ j, j < k → replyAt s j = some .ack) :
    exec .init s = .next (endInit (sendCommands (s.cfg.initSeq.drop k)
      (afterWrites k (.sleep s.cfg.settleMs :: acknowledged s.cfg (s.cfg.initSeq.take k)) s))) := by
  have hlen : (s.cfg.initSeq.take k).length = k := List.length_take_of_le hk
  have hsleep : sleepFor s.cfg.settleMs s = afterWrites 0 [.sleep s.cfg.settleMs] s := rfl
  have hacked : ∀ j, j < (s.cfg.initSeq.take k).length →
      replyAt (afterWrites 0 [.sleep s.cfg.settleMs] s) j = some .ack := by
    intro j hj
    rw [replyAt_afterWrites, Nat.zero_add]
    exact h j (hlen ▸ hj)
  have hloop := sendCommands_append_of_acked (s.cfg.initSeq.drop k) hacked
  rw [List.take_append_drop, hlen, afterWrites_afterWrites, Nat.zero_add] at hloop
  rw [exec, execInit, hsleep, hloop]
  rfl

/-- Settles O48: the loop runs past every byte, and INIT ends READY with a zeroed buffer. -/
theorem initBringsTheBlockToReady : Obligations.InitBringsTheBlockToReady := by
  intro s hacked
  have hinit := execInit_of_acked le_rfl hacked
  rw [List.drop_length, List.take_length] at hinit
  exact ⟨_, hinit, rfl, fun a _ => Memory.read_zeroed _ a⟩

/-- Settles O49: the loop runs past the acknowledged bytes and stops at the one that fails. -/
theorem initStopsAtTheFirstFailure : Obligations.InitStopsAtTheFirstFailure := by
  intro s k b hb hacked hfail
  obtain ⟨hk, rfl⟩ := List.getElem?_eq_some_iff.1 hb
  rw [execInit_of_acked hk.le hacked, List.drop_eq_getElem_cons hk,
    sendCommands_cons_of_failed _ _ (by rw [replyAt_afterWrites, Nat.add_zero, hfail]),
    afterWrites_afterWrites, afterWrites, ← List.append_assoc]
  rfl

end Sys2Proof.Machine
end

section
/-! PROOFS. The framebuffer operations: the READY check, and CLEAR and PIXEL once it is passed. -/

namespace Sys2Proof.Machine

/-! ## Before INIT, and no bus traffic -/

/-- A drawing operation can end before INIT in one way (42_framebuffer.md R74). -/
theorem DrawEnd.eq_of_uninitialized {s t : State} (h : DrawEnd s t) (hs : s.ctrl = .uninitialized) :
    t = { s with fault := .uninit, last := .faulted } := by
  cases h with
  | notReady _ => rfl
  | done _ hr _ => simp [hs] at hr
  | raised _ hr _ => simp [hs] at hr

/-- Every framebuffer operation raises UNINIT before INIT (42_framebuffer.md R74). -/
theorem exec_of_uninitialized {i : Instr} {s : State} (hs : s.ctrl = .uninitialized)
    (hi : i.draws = true ∨ i = .showFrame) :
    exec i s = .next { s with fault := .uninit, last := .faulted } := by
  obtain hi | rfl := hi
  · obtain ⟨t, he, hend⟩ := exec_draw_end s hi
    rw [he, hend.eq_of_uninitialized hs]
  · exact ifReady_of_uninitialized hs _

/-- A transfer raises nothing (60_exceptions.md R98). -/
theorem TransferEnd.fault_eq {s t : State} (h : TransferEnd s t) : t.fault = s.fault := by
  cases h with
  | answered u a hu => exact hu.fault
  | hangs t ht => exact ht.fault

/-- Settles O20: the eight operations are the drawing operations and SHOW; INIT and CMD end as bus transfers,
which leave FAULT alone. -/
theorem framebufferOperationsFaultBeforeInit : Obligations.FramebufferOperationsFaultBeforeInit := by
  refine ⟨fun s x y w h c st hs i hi => exec_of_uninitialized hs ?_, fun s b i hi => ?_⟩
  · revert i
    simp [Instr.draws]
  · obtain rfl | rfl : i = .init ∨ i = .cmd b := by simpa using hi
    · obtain ⟨t, he, hend⟩ := execInit_end s
      exact ⟨t, he, hend.fault_eq⟩
    · obtain ⟨t, he, hend⟩ := execCmd_end b s
      exact ⟨t, he, hend.fault_eq⟩

/-- No end of a drawing operation touches the bus (42_framebuffer.md R79). -/
theorem DrawEnd.bus_unused {s t : State} (h : DrawEnd s t) :
    t.log = s.log ∧ t.bus = s.bus ∧ t.draws = s.draws ∧ t.hung = s.hung := by
  cases h <;> exact ⟨rfl, rfl, rfl, rfl⟩

/-- Settles O31: by the three ways a drawing operation ends. -/
theorem drawingPerformsNoBusTraffic : Obligations.DrawingPerformsNoBusTraffic := by
  intro s x y w h c st i hi
  have hdraws : i.draws = true := by
    revert i
    simp [Instr.draws]
  obtain ⟨t, he, hend⟩ := exec_draw_end s hdraws
  exact ⟨t, he, hend.bus_unused⟩

/-! ## CLEAR -/

theorem ifReady_of_ready {s : State} (hs : s.ctrl = .ready) (k : Host.Outcome State Fault Refusal) :
    ifReady s k = k := by
  rw [ifReady, hs]

/-- `s` once CLEAR has completed (42_framebuffer.md R76). -/
def afterClear (s : State) : State := { s with fb := Memory.zeroed s.cfg.fbSize, last := .ok }

theorem execClear_of_ready {s : State} (hs : s.ctrl = .ready) : exec .clear s = .next (afterClear s) :=
  ifReady_of_ready hs _

theorem Memory.frame_zeroed (n : Nat) :
    Memory.frame n (Memory.zeroed n) = List.replicate n 0x00#8 := by
  simp [Memory.frame, List.eq_replicate_iff, Memory.read_zeroed]

/-- Settles O35: CLEAR leaves the zeroed buffer, whatever the buffer was, so a second one leaves the same. -/
theorem clearZeroFills : Obligations.ClearZeroFills := by
  refine ⟨fun s hs => ⟨_, execClear_of_ready hs, rfl, fun a _ => Memory.read_zeroed _ a, fun hh => ?_, ?_⟩,
    fun s hs => exec_of_uninitialized hs (.inl rfl)⟩
  · rw [hostRead_of_ready (s := afterClear s) hs hh]
    exact congrArg Except.ok (Memory.frame_zeroed _)
  · exact execClear_of_ready (s := afterClear s) hs

/-! ## PIXEL -/

/-- `s` once PIXEL has completed (42_framebuffer.md R77). -/
def afterPixel (x y : Int) (c : Bool) (s : State) : State :=
  { s with fb := setPixel s.cfg x y c s.fb, last := .ok }

theorem execPixel_of_ready {s : State} (x y : Int) (c : Bool) (hs : s.ctrl = .ready) :
    exec (.pixel x y c) s = .next (afterPixel x y c s) :=
  ifReady_of_ready hs _

/-- `SetPixel` touches one byte alone (42_framebuffer.md R75). -/
theorem read_setPixel_of_ne {cfg : Config} {m : Memory} {x y : Int} {c : Bool} {a n : Nat}
    (hm : Memory.wf n m) (ha : a ≠ pixelByte cfg x y) :
    Memory.read (setPixel cfg x y c m) a = Memory.read m a := by
  apply BitVec.eq_of_getLsbD_eq
  intro b _
  rw [getLsbD_read_setPixel hm, if_neg fun ⟨_, hbyte, _⟩ => ha hbyte]

/-- Settles O36: what `SetPixel` does to every bit, at the byte and bit of the map; a clipped pixel is no
write. -/
theorem pixelWritesOneBit : Obligations.PixelWritesOneBit := by
  intro s x y c hinv hs
  have hm := hinv.memory_wf
  refine ⟨_, execPixel_of_ready x y c hs, rfl, fun hin => ⟨?_, fun b hb => ?_, fun a ha => ?_⟩,
    fun hout a => ?_⟩
  · exact (getLsbD_read_setPixel hm).trans (if_pos ⟨inBounds_iff.2 hin, rfl, rfl⟩)
  · exact (getLsbD_read_setPixel hm).trans (if_neg fun ⟨_, _, hbit⟩ => hb hbit)
  · exact read_setPixel_of_ne hm ha
  · rw [afterPixel, setPixel_outside (Bool.eq_false_iff.2 fun h => hout (inBounds_iff.1 h))]

/-- Two memories in canonical form with the same bits are the same data. -/
theorem Memory.eq_of_bits {n : Nat} {m k : Memory} (hm : Memory.wf n m) (hk : Memory.wf n k)
    (h : ∀ i b, (Memory.read m i).getLsbD b = (Memory.read k i).getLsbD b) : m = k :=
  Memory.eq_of_read hm hk fun i _ => BitVec.eq_of_getLsbD_eq fun b _ => h i b

/-- Distinct in-bounds pixels hold distinct bits (20_memory.md R35). -/
theorem eq_of_pixelByte_eq {cfg : Config} {x y x' y' : Int} (h : inBounds cfg x y = true)
    (h' : inBounds cfg x' y' = true) (hbyte : pixelByte cfg x y = pixelByte cfg x' y')
    (hbit : pixelBit y = pixelBit y') : x = x' ∧ y = y' := by
  rw [← Prod.mk.injEq, ← pixelOf_pixelByte h, ← pixelOf_pixelByte h', hbyte, hbit]

section
variable {cfg : Config} {m : Memory} (hc : cfg.wf) (hm : Memory.wf cfg.fbSize m)
include hc hm

/-- The last write to a pixel wins (42_framebuffer.md R78). -/
theorem setPixel_setPixel_same (x y : Int) (c c' : Bool) :
    setPixel cfg x y c' (setPixel cfg x y c m) = setPixel cfg x y c' m := by
  have hm' := setPixel_wf x y c hc hm
  refine Memory.eq_of_bits (setPixel_wf x y c' hc hm') (setPixel_wf x y c' hc hm) fun i b => ?_
  rw [getLsbD_read_setPixel hm', getLsbD_read_setPixel hm, getLsbD_read_setPixel hm]
  split_ifs <;> rfl

/-- Writes of distinct pixels commute, clipped or not: no bit is written by both (42_framebuffer.md R78). -/
theorem setPixel_comm {x y x' y' : Int} (hne : ¬ (x = x' ∧ y = y')) (c c' : Bool) :
    setPixel cfg x' y' c' (setPixel cfg x y c m) = setPixel cfg x y c (setPixel cfg x' y' c' m) := by
  have hl := setPixel_wf x y c hc hm
  have hr := setPixel_wf x' y' c' hc hm
  refine Memory.eq_of_bits (setPixel_wf x' y' c' hc hl) (setPixel_wf x y c hc hr) fun i b => ?_
  rw [getLsbD_read_setPixel hl, getLsbD_read_setPixel hm, getLsbD_read_setPixel hr, getLsbD_read_setPixel hm]
  split_ifs with h' h
  · obtain ⟨hin', rfl, rfl⟩ := h'
    obtain ⟨hin, hbyte, hbit⟩ := h
    exact absurd (eq_of_pixelByte_eq hin hin' hbyte.symm hbit.symm) hne
  all_goals rfl

end

/-- The pixel `SetPixel` wrote in bounds has its color (42_framebuffer.md R78). -/
theorem lit_setPixel_same {cfg : Config} {m : Memory} {x y : Int} {n : Nat} (c : Bool) (hm : Memory.wf n m)
    (h : inBounds cfg x y = true) : lit cfg (setPixel cfg x y c m) x y = c := by
  rw [lit, getLsbD_read_setPixel hm, if_pos ⟨h, rfl, rfl⟩]

section
variable {s : State} (hinv : s.Inv)
include hinv

theorem afterPixel_afterPixel_same (x y : Int) (c c' : Bool) :
    afterPixel x y c' (afterPixel x y c s) = afterPixel x y c' s :=
  congrArg (fun fb => { s with fb := fb, last := .ok })
    (setPixel_setPixel_same hinv.cfg_wf hinv.memory_wf x y c c')

theorem afterPixel_comm {x y x' y' : Int} (hne : ¬ (x = x' ∧ y = y')) (c c' : Bool) :
    afterPixel x' y' c' (afterPixel x y c s) = afterPixel x y c (afterPixel x' y' c' s) :=
  congrArg (fun fb => { s with fb := fb, last := .ok })
    (setPixel_comm hinv.cfg_wf hinv.memory_wf hne c c')

end

/-- Settles O37: the laws of PIXEL are those of `SetPixel` on FB, the one field besides LAST that PIXEL
writes. -/
theorem pixelLaws : Obligations.PixelLaws := by
  intro s x y x' y' c c' hinv hs
  have hwf := setPixel_wf x y c hinv.cfg_wf hinv.memory_wf
  refine ⟨_, _, _, execPixel_of_ready x y c hs, execPixel_of_ready x y c' hs, execPixel_of_ready x' y' c' hs,
    lit_setPixel_same c' hwf, setPixel_outside, fun hne => ⟨_, execPixel_of_ready x' y' c' hs, ?_⟩, ?_⟩
  · rw [afterPixel_comm hinv hne]
    exact execPixel_of_ready x y c hs
  · rw [afterPixel_afterPixel_same hinv]
    exact execPixel_of_ready x y c' hs

end Sys2Proof.Machine
end

section
/-! PROOFS. The shapes paint their pixel sets: the range check passed, each is one `paintSet`. -/

namespace Sys2Proof.Machine

/-! ## The range check (60_exceptions.md R97) -/

theorem extremesFit_iff {x y w h : Int} :
    extremesFit x y w h = true ↔ InRange32 (x + w - 1) ∧ InRange32 (y + h - 1) := by
  rw [extremesFit, Bool.and_eq_true, fits32_iff, fits32_iff]

theorem outlineInRange_iff {x y w h : Int} :
    outlineInRange x y w h = true ↔ ((0 < w ∨ 0 < h) → InRange32 (x + w - 1) ∧ InRange32 (y + h - 1)) := by
  simp only [outlineInRange, Bool.or_eq_true, Bool.not_eq_true', Bool.or_eq_false_iff, decide_eq_false_iff_not,
    ← not_or, ← imp_iff_not_or, extremesFit_iff]

theorem fillInRange_iff {x y w h : Int} :
    fillInRange x y w h = true ↔ (0 < w → 0 < h → InRange32 (x + w - 1) ∧ InRange32 (y + h - 1)) := by
  simp only [fillInRange, Bool.or_eq_true, Bool.not_eq_true', ← Bool.decide_and, decide_eq_false_iff_not,
    ← imp_iff_not_or, extremesFit_iff, and_imp]

/-! ## The operations in READY -/

/-- `s` once a shape of pixel set `p` has been drawn (43_shapes.md R88). -/
def afterPaint (p : Int → Int → Bool) (c : Bool) (s : State) : State :=
  { s with fb := paintSet s.cfg p c s.fb, last := .ok }

/-- A BORDER of style 0 to 2 draws the outline of its stride (43_shapes.md R87). -/
theorem execBorder_of_lt {st : Fin 8} (hst : st.val < 3) (x y w h : Int) (c : Bool) (s : State) :
    exec (.border st x y w h c) s = ifReady s (drawOutline (st.val + 1) x y w h c s) := by
  rw [exec, execBorder, if_neg (by omega)]

/-- Settles O40: BORDER draws the outline of stride `style + 1`, as RECT, DASHED and DOTTED do of 1, 2 and
3. -/
theorem borderStylesSelectTheOutline : Obligations.BorderStylesSelectTheOutline := by
  intro s x y w h c
  refine ⟨execBorder_of_lt (by decide) .., execBorder_of_lt (by decide) .., execBorder_of_lt (by decide) ..,
    fun st hst hs => ?_⟩
  rw [exec, execBorder, ifReady_of_ready hs, if_pos hst]
  rfl

section
variable {s : State} {x y w h : Int} (c : Bool) (hs : s.ctrl = .ready)
include hs

theorem ready_drawOutline (n : Nat) (hr : outlineInRange x y w h = true) :
    ifReady s (drawOutline n x y w h c s) = .next (afterPaint (inOutline x y w h n) c s) := by
  rw [ifReady_of_ready hs, drawOutline, if_pos hr]
  rfl

theorem execRect_of_ready (hr : outlineInRange x y w h = true) :
    exec (.rect x y w h c) s = .next (afterPaint (inOutline x y w h 1) c s) :=
  ready_drawOutline c hs 1 hr

theorem execDashed_of_ready (hr : outlineInRange x y w h = true) :
    exec (.dashed x y w h c) s = .next (afterPaint (inOutline x y w h 2) c s) :=
  ready_drawOutline c hs 2 hr

theorem execDotted_of_ready (hr : outlineInRange x y w h = true) :
    exec (.dotted x y w h c) s = .next (afterPaint (inOutline x y w h 3) c s) :=
  ready_drawOutline c hs 3 hr

theorem execFill_of_ready (hr : fillInRange x y w h = true) :
    exec (.fill x y w h c) s = .next (afterPaint (inRegion x y w h) c s) := by
  rw [exec, execFill, ifReady_of_ready hs, if_pos hr]
  rfl

end

/-! ## The pixel sets -/

theorem onStride_iff {n : Nat} {m k : Int} : onStride n m k = true ↔ 0 ≤ k ∧ k < m ∧ k % n = 0 := by
  simp [onStride, and_assoc]

/-- The computed outline is the set R80 writes: an edge's offset is the pixel's distance from its start. -/
theorem inOutline_iff (x y w h : Int) (n : Nat) (px py : Int) :
    inOutline x y w h n px py = true ↔ OutlineSet x y w h n px py := by
  simp only [inOutline, Bool.or_eq_true, Bool.and_eq_true, beq_iff_eq, onStride_iff, OutlineSet]
  constructor
  · rintro (⟨hy, h0, hw, hn⟩ | ⟨hx, h0, hh, hn⟩)
    · exact .inl ⟨px - x, h0, hw, hn, by omega, hy⟩
    · exact .inr ⟨py - y, h0, hh, hn, by omega, hx⟩
  · rintro (⟨i, h0, hw, hn, rfl, hy⟩ | ⟨j, h0, hh, hn, rfl, hx⟩)
    · rw [add_sub_cancel_left]
      exact .inl ⟨hy, h0, hw, hn⟩
    · rw [add_sub_cancel_left]
      exact .inr ⟨hx, h0, hh, hn⟩

theorem inRegion_iff (x y w h px py : Int) : inRegion x y w h px py = true ↔ RegionSet x y w h px py := by
  simp only [inRegion, RegionSet, Bool.and_eq_true, decide_eq_true_eq, and_assoc]

/-- Painting a set paints exactly the in-bounds pixels that are in it, whatever proposition says which these
are. -/
theorem paints_afterPaint {s : State} (hinv : s.Inv) (c : Bool) {p : Int → Int → Bool} {P : Int → Int → Prop}
    (hp : ∀ px py, p px py = true ↔ P px py) : Paints s (afterPaint p c s) P c := by
  refine ⟨rfl, fun a b ha hb => ?_, fun a ha => ?_⟩
  · have hbit := getLsbD_read_paintSet (p := p) (c := c) (m := s.fb) ha hb
    exact ⟨fun hin => hbit.trans (if_pos ((hp _ _).2 hin)),
      fun hout => hbit.trans (if_neg (mt (hp _ _).1 hout))⟩
  · exact (Memory.read_of_ge (paintSet_wf _ p c _) ha).trans (Memory.read_of_ge hinv.memory_wf ha).symm

/-- Settles O38: each operation paints the outline of its stride, which is the set of R80. -/
theorem outlinesPaintTheirSets : Obligations.OutlinesPaintTheirSets := by
  intro s x y w h c hinv hs hrange
  have hr := outlineInRange_iff.2 hrange
  have hpaint (n : Nat) := paints_afterPaint hinv c (inOutline_iff x y w h n)
  exact ⟨⟨_, execRect_of_ready c hs hr, hpaint 1⟩, ⟨_, execDashed_of_ready c hs hr, hpaint 2⟩,
    ⟨_, execDotted_of_ready c hs hr, hpaint 3⟩, fun st hst =>
      ⟨_, (execBorder_of_lt hst x y w h c s).trans (ready_drawOutline c hs _ hr), hpaint _⟩⟩

/-- Settles O39: FILL paints its region, which is the set of R83. -/
theorem fillPaintsItsRegion : Obligations.FillPaintsItsRegion :=
  fun _ x y w h c hinv hs hrange =>
    ⟨_, execFill_of_ready c hs (fillInRange_iff.2 hrange), paints_afterPaint hinv c (inRegion_iff x y w h)⟩

end Sys2Proof.Machine
end

section
/-! PROOFS. `SetPixel` over a list of pixels: the bits it leaves depend on the list's pixels alone, so the
spec's loops leave what painting their pixel sets leaves (43_shapes.md R88). -/

namespace Sys2Proof.Machine

/-- The bit `b` of byte `i` is the one that `SetPixel` of `q` writes (42_framebuffer.md R75). -/
abbrev HoldsPixel (cfg : Config) (i b : Nat) (q : Int × Int) : Prop :=
  inBounds cfg q.1 q.2 = true ∧ i = pixelByte cfg q.1 q.2 ∧ b = pixelBit q.2

theorem setPixels_cons (cfg : Config) (c : Bool) (q : Int × Int) (qs : List (Int × Int)) (m : Memory) :
    setPixels cfg c (q :: qs) m = setPixels cfg c qs (setPixel cfg q.1 q.2 c m) := rfl

section
variable {cfg : Config} (hc : cfg.wf)
include hc

theorem setPixels_wf {m : Memory} (c : Bool) (qs : List (Int × Int)) (hm : Memory.wf cfg.fbSize m) :
    Memory.wf cfg.fbSize (setPixels cfg c qs m) := by
  induction qs generalizing m with
  | nil => exact hm
  | cons q qs ih =>
    rw [setPixels_cons]
    exact ih (setPixel_wf q.1 q.2 c hc hm)

/-- A bit that some pixel of the list writes has the color, every other stays. -/
theorem getLsbD_read_setPixels {m : Memory} (c : Bool) (qs : List (Int × Int))
    (hm : Memory.wf cfg.fbSize m) (i b : Nat) :
    (Memory.read (setPixels cfg c qs m) i).getLsbD b =
      if ∃ q ∈ qs, HoldsPixel cfg i b q then c else (Memory.read m i).getLsbD b := by
  induction qs generalizing m with
  | nil => simp [setPixels]
  | cons q qs ih =>
    rw [setPixels_cons, ih (setPixel_wf q.1 q.2 c hc hm), getLsbD_read_setPixel hm]
    by_cases hq : HoldsPixel cfg i b q
    · rw [if_pos hq, ite_self, if_pos ⟨q, List.mem_cons_self, hq⟩]
    · rw [if_neg hq]
      simp only [List.mem_cons, exists_eq_or_imp, hq, false_or]

/-- A bit of FB is written exactly where its own pixel is in the list (20_memory.md R35). -/
theorem exists_holdsPixel_iff {qs : List (Int × Int)} {i b : Nat} (hi : i < cfg.fbSize) (hb : b < 8) :
    (∃ q ∈ qs, HoldsPixel cfg i b q) ↔ pixelOf cfg i b ∈ qs := by
  constructor
  · rintro ⟨q, hq, hin, rfl, rfl⟩
    rwa [pixelOf_pixelByte hin]
  · intro hq
    obtain ⟨hbyte, hbit⟩ := pixelByte_pixelOf (c := cfg) (i := i) hb
    exact ⟨_, hq, inBounds_pixelOf hc hi hb, hbyte.symm, hbit.symm⟩

/-- Painting a set leaves what `SetPixel` over a list of its pixels leaves (43_shapes.md R88). -/
theorem paintSet_eq_setPixels {m : Memory} (hm : Memory.wf cfg.fbSize m) (c : Bool) {p : Int → Int → Bool}
    {qs : List (Int × Int)} (hp : ∀ px py, p px py = true ↔ (px, py) ∈ qs) :
    paintSet cfg p c m = setPixels cfg c qs m := by
  refine Memory.eq_of_read (paintSet_wf cfg p c m) (setPixels_wf hc c qs hm) fun i hi =>
    BitVec.eq_of_getLsbD_eq fun b hb => ?_
  rw [getLsbD_read_paintSet hi hb, getLsbD_read_setPixels hc c qs hm]
  exact if_congr ((hp _ _).trans (exists_holdsPixel_iff hc hi hb).symm) rfl rfl

end

/-- Settles O41: every bit depends on the pixels of the list alone, and a buffer in canonical form on its
bits. -/
theorem orderOfPixelWritesDoesNotMatter : Obligations.OrderOfPixelWritesDoesNotMatter := by
  intro cfg m c ps qs hc hm hpq
  refine Memory.eq_of_bits (setPixels_wf hc c ps hm) (setPixels_wf hc c qs hm) fun i b => ?_
  rw [getLsbD_read_setPixels hc c ps hm, getLsbD_read_setPixels hc c qs hm]
  simp only [hpq]

/-! ## The pixels of the loops (43_shapes.md R80, R83) -/

/-- `for i in [0, n) step s` runs through `S(n)` of R80. -/
theorem mem_stepsTo {n : Int} {s : Nat} (hs : 0 < s) {i : Int} : i ∈ stepsTo n s ↔ onStride s n i = true := by
  rw [onStride_iff]
  simp only [stepsTo, List.mem_map, List.mem_range, Nat.lt_div_iff_mul_lt hs]
  constructor
  · rintro ⟨k, hk, rfl⟩
    refine ⟨by omega, by omega, ?_⟩
    rw [Nat.cast_mul]
    exact Int.mul_emod_left _ _
  · rintro ⟨h0, hn, hdvd⟩
    obtain ⟨k, rfl⟩ := Int.eq_ofNat_of_zero_le h0
    obtain ⟨k, rfl⟩ := Int.natCast_dvd_natCast.1 (Int.dvd_of_emod_eq_zero hdvd)
    refine ⟨k, ?_, by rw [Nat.mul_comm]⟩
    rw [Nat.mul_comm]
    omega

theorem inOutline_iff_mem (x y w h : Int) {n : Nat} (hn : 0 < n) (px py : Int) :
    inOutline x y w h n px py = true ↔ (px, py) ∈ outlinePixels x y w h n := by
  rw [inOutline_iff]
  simp only [outlinePixels, OutlineSet, List.mem_append, List.mem_flatMap, mem_stepsTo hn, onStride_iff,
    List.mem_cons, List.not_mem_nil, or_false, Prod.mk.injEq, ← and_or_left, and_assoc]
  refine or_congr_right (exists_congr fun j => ?_)
  tauto

theorem inRegion_iff_mem (x y w h px py : Int) :
    inRegion x y w h px py = true ↔ (px, py) ∈ fillPixels x y w h := by
  rw [inRegion_iff]
  simp only [fillPixels, RegionSet, List.mem_flatMap, List.mem_map, mem_stepsTo Nat.one_pos, onStride_iff,
    Prod.mk.injEq]
  constructor
  · rintro ⟨hx0, hx, hy0, hy⟩
    exact ⟨px - x, by omega, py - y, by omega, by omega, by omega⟩
  · rintro ⟨i, ⟨hi0, hi, _⟩, j, ⟨hj0, hj, _⟩, rfl, rfl⟩
    omega

theorem afterPaint_eq_setPixels {s : State} (hinv : s.Inv) (c : Bool) {p : Int → Int → Bool}
    {qs : List (Int × Int)} (hp : ∀ px py, p px py = true ↔ (px, py) ∈ qs) :
    afterPaint p c s = { s with fb := setPixels s.cfg c qs s.fb, last := .ok } := by
  rw [afterPaint, paintSet_eq_setPixels hinv.cfg_wf hinv.memory_wf c hp]

/-- Settles O42: each operation paints its set, and the set is the pixels of its loops. -/
theorem shapesEqualTheirLoops : Obligations.ShapesEqualTheirLoops := by
  intro s x y w h c hinv hs
  refine ⟨fun hrange => ?_, fun hrange => ?_⟩
  · have hr := outlineInRange_iff.2 hrange
    have hloops {n : Nat} (hn : 0 < n) :=
      afterPaint_eq_setPixels hinv c (inOutline_iff_mem x y w h hn)
    exact ⟨hloops Nat.one_pos ▸ execRect_of_ready c hs hr, hloops Nat.two_pos ▸ execDashed_of_ready c hs hr,
      hloops (Nat.succ_pos 2) ▸ execDotted_of_ready c hs hr⟩
  · rw [execFill_of_ready c hs (fillInRange_iff.2 hrange),
      afterPaint_eq_setPixels hinv c (inRegion_iff_mem x y w h)]

end Sys2Proof.Machine
end

section
/-! PROOFS. The count laws: the lit pixels of the display as a finite set, and its size after a shape has been
drawn on a clear buffer (43_shapes.md R82, R84 to R86). -/

namespace Sys2Proof.Machine

/-! ## Counting lit pixels -/

theorem countP_range (n : Nat) (p : Nat → Bool) :
    (List.range n).countP p = ((Finset.range n).filter fun a => p a = true).card := by
  calc (List.range n).countP p
    _ = (List.range n).countP fun a => decide (p a = true) := by simp only [Bool.decide_eq_true]
    _ = _ := List.countP_eq_length_filter

/-- The lit pixels row by row. -/
theorem litCount_eq_sum (cfg : Config) (m : Memory) :
    litCount cfg m =
      ∑ b ∈ Finset.range cfg.height, ∑ a ∈ Finset.range cfg.width, if lit cfg m a b = true then 1 else 0 := by
  simp only [litCount, bind_pure_comp, List.map_eq_map, List.map_map, List.countP_map, countP_range,
    ← Finset.card_filter]
  rfl

/-- The pixel of a column and a row. -/
def pixelAt : ℕ × ℕ ↪ Int × Int := Nat.castEmbedding.prodMap Nat.castEmbedding

/-- The lit pixels of the display are counted by the finite set that holds exactly these. -/
theorem litCount_eq_card {cfg : Config} {m : Memory} {F : Finset (Int × Int)}
    (hF : ∀ px py, (px, py) ∈ F ↔ inBounds cfg px py = true ∧ lit cfg m px py = true) :
    litCount cfg m = F.card := by
  have hset : F = ((Finset.range cfg.width ×ˢ Finset.range cfg.height).filter
      fun q => lit cfg m q.1 q.2 = true).map pixelAt := by
    ext ⟨px, py⟩
    rw [hF, inBounds_iff]
    simp only [Finset.mem_map, Finset.mem_filter, Finset.mem_product, Finset.mem_range, Prod.exists]
    constructor
    · rintro ⟨⟨hx0, hx, hy0, hy⟩, hlit⟩
      lift px to ℕ using hx0
      lift py to ℕ using hy0
      exact ⟨px, py, ⟨⟨Int.ofNat_lt.1 hx, Int.ofNat_lt.1 hy⟩, hlit⟩, rfl⟩
    · rintro ⟨a, b, ⟨⟨ha, hb⟩, hlit⟩, hab⟩
      obtain ⟨rfl, rfl⟩ := Prod.mk.inj hab
      exact ⟨⟨Int.natCast_nonneg a, Int.ofNat_lt.2 ha, Int.natCast_nonneg b, Int.ofNat_lt.2 hb⟩, hlit⟩
  rw [hset, Finset.card_map, Finset.card_filter, Finset.sum_product_right, litCount_eq_sum]

/-- What painting a set does to an in-bounds pixel (43_shapes.md R88). -/
theorem lit_paintSet {cfg : Config} (hc : cfg.wf) {m : Memory} {p : Int → Int → Bool} {c : Bool} {px py : Int}
    (hin : inBounds cfg px py = true) :
    lit cfg (paintSet cfg p c m) px py = if p px py then c else lit cfg m px py := by
  rw [lit, getLsbD_read_paintSet (pixelByte_lt hc hin) (pixelBit_lt py), pixelOf_pixelByte hin]
  rfl

theorem lit_of_clear (cfg : Config) {m : Memory} (hm : ∀ a, Memory.read m a = 0x00#8) (px py : Int) :
    lit cfg m px py = false := by
  rw [lit, hm]
  exact BitVec.getLsbD_zero

/-- A set painted in 1 on a clear buffer lights as many pixels as it has in bounds. -/
theorem litCount_afterPaint {s : State} (hinv : s.Inv) (hclear : ∀ a, Memory.read s.fb a = 0x00#8)
    {p : Int → Int → Bool} {F : Finset (Int × Int)}
    (hF : ∀ px py, (px, py) ∈ F ↔ inBounds s.cfg px py = true ∧ p px py = true) :
    litCount s.cfg (afterPaint p true s).fb = F.card := by
  refine litCount_eq_card fun px py => (hF px py).trans (and_congr_right fun hin => ?_)
  rw [afterPaint, lit_paintSet hinv.cfg_wf hin, lit_of_clear s.cfg hclear]
  simp

/-! ## Edges -/

/-- The pixels of one edge, along its axis: every `k`-th of the `n` from `a` on (43_shapes.md R80). -/
def edge (a n : Int) (k : Nat) : Finset Int := ((stepsTo n k).map (a + ·)).toFinset

section
variable {a n : Int} {k : Nat} (hk : 0 < k)
include hk

theorem mem_edge {i : Int} : i ∈ edge a n k ↔ onStride k n (i - a) = true := by
  rw [edge, List.mem_toFinset, List.mem_map, ← mem_stepsTo hk]
  constructor
  · rintro ⟨j, hj, rfl⟩
    rwa [add_sub_cancel_left]
  · exact fun hi => ⟨i - a, hi, by omega⟩

theorem stepsTo_nodup : (stepsTo n k).Nodup := by
  refine List.nodup_range.map fun i j hij => ?_
  exact Nat.eq_of_mul_eq_mul_right hk (Int.ofNat_inj.1 hij)

/-- An edge has `ceil(n/k)` pixels. -/
theorem card_edge : (edge a n k).card = (n.toNat + (k - 1)) / k := by
  rw [edge, List.toFinset_card_of_nodup ((stepsTo_nodup hk).map (add_right_injective a)), List.length_map,
    stepsTo, List.length_map, List.length_range]

theorem first_mem_edge (hn : 0 < n) : a ∈ edge a n k := by
  rw [mem_edge hk, onStride_iff, sub_self]
  exact ⟨le_rfl, hn, Int.zero_emod _⟩

theorem last_mem_edge_iff (hn : 0 < n) : a + n - 1 ∈ edge a n k ↔ (n.toNat - 1) % k = 0 := by
  have hlast : a + n - 1 - a = ((n.toNat - 1 : ℕ) : Int) := by omega
  rw [mem_edge hk, onStride_iff, hlast, ← Int.natCast_mod]
  omega

/-- Of its two ends an edge has its first pixel, and its last where the stride meets it. -/
theorem card_edge_inter_ends (hn : 2 ≤ n) :
    (edge a n k ∩ {a, a + n - 1}).card = 1 + if (n.toNat - 1) % k = 0 then 1 else 0 := by
  rw [Finset.inter_insert_of_mem (first_mem_edge hk (by omega))]
  split_ifs with hlast
  · rw [Finset.inter_singleton_of_mem ((last_mem_edge_iff hk (by omega)).2 hlast)]
    exact Finset.card_pair (by omega)
  · rw [Finset.inter_singleton_of_notMem (mt (last_mem_edge_iff hk (by omega)).1 hlast)]
    rfl

end

/-! ## FILL -/

/-- The region of FILL clipped to the display (43_shapes.md R84). -/
def clippedRegion (cfg : Config) (x y w h : Int) : Finset (Int × Int) :=
  edge (max x 0) (min (x + w) cfg.width - max x 0) 1 ×ˢ edge (max y 0) (min (y + h) cfg.height - max y 0) 1

theorem mem_clippedRegion (cfg : Config) (x y w h px py : Int) :
    (px, py) ∈ clippedRegion cfg x y w h ↔ inBounds cfg px py = true ∧ inRegion x y w h px py = true := by
  rw [inBounds_iff, inRegion_iff, RegionSet, clippedRegion, Finset.mem_product, mem_edge Nat.one_pos,
    mem_edge Nat.one_pos, onStride_iff, onStride_iff]
  omega

theorem card_clippedRegion (cfg : Config) (x y w h : Int) :
    ((clippedRegion cfg x y w h).card : Int) =
      max 0 (min (x + w) cfg.width - max x 0) * max 0 (min (y + h) cfg.height - max y 0) := by
  have hcard (a n : Int) : ((edge a n 1).card : Int) = max 0 n := by
    rw [card_edge Nat.one_pos]
    omega
  rw [clippedRegion, Finset.card_product, Nat.cast_mul, hcard, hcard]

/-- Settles O43: FILL paints its region, of which the clipped part is in bounds. -/
theorem fillCountLaw : Obligations.FillCountLaw := by
  intro s x y w h hinv hs hclear hrange
  refine ⟨_, execFill_of_ready true hs (fillInRange_iff.2 hrange), ?_⟩
  rw [litCount_afterPaint hinv hclear (mem_clippedRegion s.cfg x y w h), card_clippedRegion]

/-! ## Outlines -/

/-- The pixels of the two horizontal edges. -/
def horizontalEdges (x y w h : Int) (k : Nat) : Finset (Int × Int) := edge x w k ×ˢ {y, y + h - 1}

/-- The pixels of the two vertical edges. -/
def verticalEdges (x y w h : Int) (k : Nat) : Finset (Int × Int) := {x, x + w - 1} ×ˢ edge y h k

section
variable (x y w h : Int) {k : Nat} (hk : 0 < k)
include hk

theorem mem_edges_iff (px py : Int) :
    (px, py) ∈ horizontalEdges x y w h k ∪ verticalEdges x y w h k ↔ inOutline x y w h k px py = true := by
  simp only [horizontalEdges, verticalEdges, Finset.mem_union, Finset.mem_product, mem_edge hk,
    Finset.mem_insert, Finset.mem_singleton, inOutline, Bool.or_eq_true, Bool.and_eq_true, beq_iff_eq]
  tauto

/-- What a horizontal and a vertical edge share is a corner that both strides meet. -/
theorem card_corners (hw : 2 ≤ w) (hh : 2 ≤ h) :
    (horizontalEdges x y w h k ∩ verticalEdges x y w h k).card =
      (1 + if (w.toNat - 1) % k = 0 then 1 else 0) * (1 + if (h.toNat - 1) % k = 0 then 1 else 0) := by
  rw [horizontalEdges, verticalEdges, Finset.product_inter_product, Finset.inter_comm {y, y + h - 1},
    Finset.card_product, card_edge_inter_ends hk hw, card_edge_inter_ends hk hh]

/-- The four edges, less the corners counted twice (43_shapes.md R85, R86). -/
theorem card_edges (hw : 2 ≤ w) (hh : 2 ≤ h) :
    (horizontalEdges x y w h k ∪ verticalEdges x y w h k).card = outlineCount w.toNat h.toNat k := by
  have hhor : (horizontalEdges x y w h k).card = (w.toNat + (k - 1)) / k * 2 := by
    rw [horizontalEdges, Finset.card_product, card_edge hk, Finset.card_pair (by omega)]
  have hver : (verticalEdges x y w h k).card = 2 * ((h.toNat + (k - 1)) / k) := by
    rw [verticalEdges, Finset.card_product, card_edge hk, Finset.card_pair (by omega)]
  have hceil (n : Nat) : n + k - 1 = n + (k - 1) := Nat.add_sub_assoc hk n
  rw [Finset.card_union, hhor, hver, card_corners x y w h hk hw hh, outlineCount, hceil, hceil]
  split_ifs <;> omega

end

/-- An outline of a rectangle wholly in bounds lies in the display. -/
theorem inBounds_of_inOutline {cfg : Config} {x y w h : Int} {k : Nat} {px py : Int} (hw : 0 < w) (hh : 0 < h)
    (hin : RectInside cfg x y w h) (hp : inOutline x y w h k px py = true) : inBounds cfg px py = true := by
  obtain ⟨hx0, hx, hy0, hy⟩ := hin
  rw [inBounds_iff]
  obtain ⟨i, hi0, hi, -, rfl, hpy⟩ | ⟨j, hj0, hj, -, rfl, hpx⟩ := (inOutline_iff ..).1 hp
  · omega
  · omega

/-- With stride 1 every edge is whole and the four corners are shared. -/
theorem outlineCount_one (w h : Nat) : outlineCount w h 1 = 2 * w + 2 * h - 4 := by
  simp [outlineCount, Nat.mod_one]

/-- The count law of every outline wholly in bounds (43_shapes.md R82, R85, R86). -/
theorem litCount_outline {s : State} {x y w h : Int} (hinv : s.Inv)
    (hclear : ∀ a, Memory.read s.fb a = 0x00#8) (hw : 2 ≤ w) (hh : 2 ≤ h) (hin : RectInside s.cfg x y w h)
    {k : Nat} (hk : 0 < k) :
    litCount s.cfg (afterPaint (inOutline x y w h k) true s).fb = outlineCount w.toNat h.toNat k := by
  rw [← card_edges x y w h hk hw hh]
  refine litCount_afterPaint hinv hclear fun px py => (mem_edges_iff x y w h hk px py).trans ?_
  exact (and_iff_right_of_imp (inBounds_of_inOutline (by omega) (by omega) hin)).symm

/-- Settles O44: the count law of outlines at stride 1. -/
theorem rectCountLaw : Obligations.RectCountLaw := by
  intro s x y w h hinv hs hclear hw hh hin hxw hyh
  refine ⟨_, execRect_of_ready true hs (outlineInRange_iff.2 fun _ => ⟨hxw, hyh⟩), ?_⟩
  rw [litCount_outline hinv hclear hw hh hin Nat.one_pos, outlineCount_one]
  omega

/-- Settles O45: the count law of outlines at strides 2 and 3. -/
theorem dashedAndDottedCountLaws : Obligations.DashedAndDottedCountLaws := by
  intro s x y w h hinv hs hclear hw hh hin hxw hyh
  have hr : outlineInRange x y w h = true := outlineInRange_iff.2 fun _ => ⟨hxw, hyh⟩
  have hcount {k : Nat} (hk : 0 < k) := litCount_outline hinv hclear hw hh hin hk
  exact ⟨⟨_, execDashed_of_ready true hs hr, hcount Nat.two_pos⟩,
    ⟨_, execDotted_of_ready true hs hr, hcount (Nat.succ_pos 2)⟩⟩

end Sys2Proof.Machine
end

section
/-! PROOFS. SHOW (44_flush.md R89): its transfer by the answers its two writes draw; and what INIT, CMD and SHOW
leave of the buffer, whatever the bus answers (44_flush.md R90). -/

namespace Sys2Proof.Machine

/-! ## The transfer of SHOW -/

/-- An answered bus write. -/
theorem busWrite_eq_afterWrites {addr : BusAddr} {bytes : List Byte} {hold : Bool} {s : State} {a : BusResult}
    (h : replyAt s 0 = some a) :
    busWrite addr bytes hold s = (some a, afterWrites 1 [.write addr bytes hold a] s) :=
  busWrite_answered h

/-- `send_data` whose control write fails: the data write is not attempted (40_transport.md R62). -/
theorem sendData_of_control_failed (bytes : List Byte) {s : State} (h : replyAt s 0 = some .fail) :
    sendData bytes s =
      (some .fail, afterWrites 1 [.write s.cfg.devAddr [s.cfg.ctrlData] true .fail] s) := by
  rw [sendData, busWrite_eq_afterWrites h, andThen]

/-- `send_data` whose control write is acknowledged and whose data write is answered: both are logged, and the
second answer is that of the whole (40_transport.md R62). -/
theorem sendData_of_control_acked (bytes : List Byte) {s : State} {a : BusResult}
    (hctrl : replyAt s 0 = some .ack) (hdata : replyAt s 1 = some a) :
    sendData bytes s = (some a, afterWrites 2
      [.write s.cfg.devAddr [s.cfg.ctrlData] true .ack, .write s.cfg.devAddr bytes false a] s) := by
  have hnext : replyAt (afterWrites 1 [.write s.cfg.devAddr [s.cfg.ctrlData] true .ack] s) 0 = some a := by
    rw [replyAt_afterWrites, hdata]
  rw [sendData, busWrite_eq_afterWrites hctrl, andThen, busWrite_eq_afterWrites hnext, afterWrites_afterWrites,
    List.singleton_append]

theorem execShow_of_ready {s : State} (hs : s.ctrl = .ready) :
    exec .showFrame s = .next (endTransfer (sendData (Memory.frame s.cfg.fbSize s.fb) s)) :=
  ifReady_of_ready hs _

/-- SHOW whose two writes are both answered ends with the status of the second. -/
theorem execShow_answered {s : State} {a : BusResult} (hs : s.ctrl = .ready)
    (hctrl : replyAt s 0 = some .ack) (hdata : replyAt s 1 = some a) :
    exec .showFrame s = .next { withRepliesDrawn 2 s with
      log := s.log ++ [.write s.cfg.devAddr [s.cfg.ctrlData] true .ack,
        .write s.cfg.devAddr (Memory.frame s.cfg.fbSize s.fb) false a]
      last := statusOf a } := by
  rw [execShow_of_ready hs, sendData_of_control_acked _ hctrl hdata]
  rfl

theorem execShow_of_control_failed {s : State} (hs : s.ctrl = .ready) (hctrl : replyAt s 0 = some .fail) :
    exec .showFrame s = .next { withRepliesDrawn 1 s with
      log := s.log ++ [.write s.cfg.devAddr [s.cfg.ctrlData] true .fail]
      last := .transportFailure } := by
  rw [execShow_of_ready hs, sendData_of_control_failed _ hctrl]
  rfl

/-- Settles O47: an acknowledged control write is followed by the frame, whose answer gives the status; a failed
one ends SHOW; and UNINITIALIZED fails the READY check. -/
theorem showSendsTheWholeFrame : Obligations.ShowSendsTheWholeFrame :=
  fun _ => ⟨execShow_answered, execShow_answered, execShow_of_control_failed,
    fun hs => exec_of_uninitialized hs (.inr rfl)⟩

/-! ## What INIT, CMD and SHOW leave of the buffer -/

theorem TransferEnd.fb_eq {s t : State} (h : TransferEnd s t) : t.fb = s.fb := by
  cases h with
  | answered u a hu => exact hu.fb
  | hangs t ht => exact ht.fb

theorem TransferEnd.host_eq {s t : State} (h : TransferEnd s t) : t.host = s.host := by
  cases h with
  | answered u a hu => exact hu.host
  | hangs t ht => exact ht.host

theorem InitEnd.host_eq {s t : State} (h : InitEnd s t) : t.host = s.host := by
  cases h with
  | ready u hu => exact hu.host
  | failed u hu => exact hu.host
  | hangs t ht => exact ht.host

/-- INIT leaves FB as it was, unless it completes (41_init.md R68, R70). -/
theorem InitEnd.fb_eq_or_zeroed {s t : State} (h : InitEnd s t) :
    t.fb = s.fb ∨ (t.last = .ok ∧ t.ctrl = .ready ∧ ∀ a, Memory.read t.fb a = 0x00#8) := by
  cases h with
  | ready u _ => exact .inr ⟨rfl, rfl, Memory.read_zeroed _⟩
  | failed u hu => exact .inl hu.fb
  | hangs t ht => exact .inl ht.fb

/-- SHOW raises UNINIT or ends as a transfer (44_flush.md R89): unlike a drawing operation it never writes
FB. -/
theorem execShow_uninit_or_transferEnd (s : State) :
    exec .showFrame s = .next { s with fault := .uninit, last := .faulted } ∨
      ∃ t, exec .showFrame s = .next t ∧ TransferEnd s t := by
  obtain ⟨_, he⟩ | ⟨_, he⟩ :=
    ifReady_cases s (.next (endTransfer (sendData (Memory.frame s.cfg.fbSize s.fb) s)))
  · exact .inr ⟨_, he, (sendData_call _ s).transferEnd⟩
  · exact .inl he

/-- Settles O51: by the ways a transfer and INIT end; a SHOW that fails the READY check writes FAULT and LAST
alone. -/
theorem transfersLeaveTheBufferAlone : Obligations.TransfersLeaveTheBufferAlone := by
  refine ⟨fun s b i hi => ?_, fun s => ?_⟩
  · obtain rfl | rfl : i = .showFrame ∨ i = .cmd b := by simpa using hi
    · obtain he | ⟨t, he, hend⟩ := execShow_uninit_or_transferEnd s
      · exact ⟨_, he, rfl, rfl, rfl, rfl⟩
      · exact ⟨t, he, hend.fb_eq, hend.ctrl_eq, hend.cfg_eq, hend.host_eq⟩
    · obtain ⟨t, he, hend⟩ := execCmd_end b s
      exact ⟨t, he, hend.fb_eq, hend.ctrl_eq, hend.cfg_eq, hend.host_eq⟩
  · obtain ⟨t, he, hend⟩ := execInit_end s
    exact ⟨t, he, hend.cfg_eq, hend.host_eq, hend.fb_eq_or_zeroed⟩

end Sys2Proof.Machine
end

section
/-! PROOFS. How an operation and a step can end: complete, fault or hang (60_exceptions.md R91, R94, R95). -/

namespace Sys2Proof.Machine

/-! ## A submission that decodes -/

/-- A block that takes a submission runs the operation it decodes to (60_exceptions.md R91). -/
theorem step_of_decode_ok {s : State} {d : Descriptor} {rest : List HostEvent} {i : Instr}
    (hs : Submits s d rest) (hd : decode d = .ok i) : step s = exec i { s with host := rest } := by
  obtain ⟨hh, hf, hhost⟩ := hs
  rw [step_of_submit hhost, if_neg (by simp [hh]), if_neg (by simp [hf]), submit, hd]

/-- Settles O10: by the step on a submission to a block that takes it. -/
theorem stepRunsTheDecodedOperation : Obligations.StepRunsTheDecodedOperation :=
  fun _ _ _ _ hs hd => step_of_decode_ok hs hd

/-! ## A faulted block -/

theorem step_of_faulted {s : State} {d : Descriptor} {rest : List HostEvent} (hh : s.hung = false)
    (hf : s.fault ≠ .none) (hhost : s.host = .submit d :: rest) : step s = .refused .blockFaulted := by
  rw [step_of_submit hhost, if_neg (by simp [hh]), if_pos hf]

/-- The fault codes are the nonzero values (60_exceptions.md R93). -/
theorem faultBits_ne_zero {code : FaultCode} (h : code ≠ .none) : faultBits code ≠ 0#4 := by
  cases code with
  | none => exact absurd rfl h
  | uninit | illegalOp | reserved | length | style | range => decide

/-- Settles O17: of the steps that answer a next state, a faulted block has the reset and the idle one alone. -/
theorem faultIsStickyUntilReset : Obligations.FaultIsStickyUntilReset := by
  intro s hf hh
  refine ⟨fun d rest => step_of_faulted hh hf, fun t h => ?_, ?_⟩
  · obtain ⟨rest, hhost, _⟩ | ⟨_, _, rfl⟩ | ⟨_, _, _, _, hnone, _⟩ := step_next h
    · exact .inr ⟨rest, hhost⟩
    · exact .inl rfl
    · exact absurd hnone hf
  · rw [status_fault]
    exact faultBits_ne_zero hf

/-! ## The ends of an operation -/

/-- A drawing operation completes with OK or faults, and a fault writes FAULT and LAST alone. -/
theorem DrawEnd.completes_or_faults {s t : State} (h : DrawEnd s t) :
    (t.hung = s.hung ∧ t.fault = s.fault ∧ t.last = .ok) ∨
      (t.fault ≠ .none ∧ t = { s with fault := t.fault, last := .faulted }) := by
  cases h with
  | done => exact .inl ⟨rfl, rfl, rfl⟩
  | notReady => exact .inr ⟨by simp, rfl⟩
  | raised code _ hc => exact .inr ⟨by rcases hc with rfl | rfl <;> simp, rfl⟩

theorem statusOf_ok_or_transportFailure (a : BusResult) :
    statusOf a = .ok ∨ statusOf a = .transportFailure := by
  cases a with
  | ack => exact .inl rfl
  | fail => exact .inr rfl

/-- A transfer completes with its status or hangs (60_exceptions.md R98, R102). -/
theorem TransferEnd.completes_or_hangs {s t : State} (h : TransferEnd s t) :
    (t.hung = s.hung ∧ (t.last = .ok ∨ t.last = .transportFailure)) ∨
      (t.hung = true ∧ t.last = s.last) := by
  cases h with
  | answered u a _ hh => exact .inl ⟨hh, statusOf_ok_or_transportFailure a⟩
  | hangs t ht hh => exact .inr ⟨hh, ht.last⟩

/-- Every operation answers a next state. -/
theorem exec_next (i : Instr) (s : State) : ∃ t, exec i s = .next t := by
  have drawn (hi : i.draws = true) : ∃ t, exec i s = .next t := (exec_draw_end s hi).imp fun _ h => h.1
  cases i with
  | init => exact (execInit_end s).imp fun _ h => h.1
  | cmd b => exact (execCmd_end b s).imp fun _ h => h.1
  | showFrame => exact (execShow_end s).imp fun _ h => h.1
  | clear | pixel | rect | fill | dashed | dotted | border => exact drawn rfl

/-- Settles O19: a drawing operation completes or faults, a transfer and INIT complete or hang. -/
theorem everyOperationCompletesFaultsOrHangs : Obligations.EveryOperationCompletesFaultsOrHangs := by
  intro i s hh
  obtain ⟨t, ht⟩ := exec_next i s
  refine ⟨t, ht, ?_⟩
  rw [← hh]
  obtain hend | hend | ⟨_, hend⟩ := exec_end ht
  · obtain ⟨hhung, hfault, hlast⟩ | hfaulted := hend.completes_or_faults
    · exact .inl ⟨hhung, hfault, .inl hlast⟩
    · exact .inr (.inl hfaulted)
  · obtain ⟨hhung, hlast⟩ | ⟨hhung, hlast⟩ := hend.completes_or_hangs
    · exact .inl ⟨hhung, hend.fault_eq, hlast⟩
    · exact .inr (.inr ⟨hhung, hend.fault_eq, hlast⟩)
  · obtain ⟨hhung, hlast, _⟩ | ⟨hhung, hlast, _⟩ | ⟨hhung, hlast, _⟩ := hend.hung_last_ctrl
    · exact .inl ⟨hhung, hend.fault_eq, .inl hlast⟩
    · exact .inl ⟨hhung, hend.fault_eq, .inr hlast⟩
    · exact .inr (.inr ⟨hhung, hend.fault_eq, hlast⟩)

/-- An operation leaves FAULT, or writes FAULT and LAST and nothing else (60_exceptions.md R94). -/
theorem exec_fault_eq_or_faulted {i : Instr} {s t : State} (h : exec i s = .next t) :
    t.fault = s.fault ∨ t = { s with fault := t.fault, last := .faulted } := by
  obtain hend | hend | ⟨_, hend⟩ := exec_end h
  · exact hend.completes_or_faults.imp (fun ⟨_, hfault, _⟩ => hfault) fun ⟨_, ht⟩ => ht
  · exact .inl hend.fault_eq
  · exact .inl hend.fault_eq

/-- Settles O18: an unfaulted block is faulted by the decoder or by an operation, and by neither is anything
else written. -/
theorem faultsArePrecise : Obligations.FaultsArePrecise := by
  intro s t hf h hft
  obtain ⟨rest, _, rfl⟩ | ⟨_, _, rfl⟩ | ⟨d, rest, hhost, _, _, hd⟩ := step_next h
  · exact absurd rfl hft
  · exact absurd hf hft
  · refine ⟨d, rest, hhost, ?_⟩
    obtain ⟨e, _, rfl⟩ | ⟨i, _, hx⟩ := hd
    · rfl
    · obtain hkept | hfaulted := exec_fault_eq_or_faulted hx
      · exact absurd (hkept.trans hf) hft
      · exact hfaulted

end Sys2Proof.Machine
end

section
/-! PROOFS. The checks of an operation in their order, UNINIT, STYLE, RANGE (60_exceptions.md R96, R97), and
what the range check bounds. -/

namespace Sys2Proof.Machine

theorem outlineInRange_eq_false {x y w h : Int} (hpos : 0 < w ∨ 0 < h)
    (hout : ¬ (InRange32 (x + w - 1) ∧ InRange32 (y + h - 1))) : outlineInRange x y w h = false :=
  Bool.eq_false_iff.2 fun hin => hout (outlineInRange_iff.1 hin hpos)

theorem fillInRange_eq_false {x y w h : Int} (hw : 0 < w) (hh : 0 < h)
    (hout : ¬ (InRange32 (x + w - 1) ∧ InRange32 (y + h - 1))) : fillInRange x y w h = false :=
  Bool.eq_false_iff.2 fun hin => hout (fillInRange_iff.1 hin hw hh)

section
variable {s : State} {x y w h : Int} (c : Bool) (hs : s.ctrl = .ready)
include hs

theorem drawOutline_raises_range (n : Nat) (hr : outlineInRange x y w h = false) :
    ifReady s (drawOutline n x y w h c s) = .next { s with fault := .range, last := .faulted } := by
  rw [ifReady_of_ready hs, drawOutline, hr]
  rfl

theorem execFill_raises_range (hr : fillInRange x y w h = false) :
    exec (.fill x y w h c) s = .next { s with fault := .range, last := .faulted } := by
  rw [exec, execFill, ifReady_of_ready hs, hr]
  rfl

theorem execBorder_raises_style {st : Fin 8} (hst : 3 ≤ st.val) :
    exec (.border st x y w h c) s = .next { s with fault := .style, last := .faulted } := by
  rw [exec, execBorder, ifReady_of_ready hs, if_pos hst]
  rfl

theorem execBorder_raises_range {st : Fin 8} (hst : st.val < 3) (hr : outlineInRange x y w h = false) :
    exec (.border st x y w h c) s = .next { s with fault := .range, last := .faulted } :=
  (execBorder_of_lt hst x y w h c s).trans (drawOutline_raises_range c hs _ hr)

end

/-- Settles O21: BORDER makes the READY check, then that of the style, then that of the range. -/
theorem uninitBeforeStyleBeforeRange : Obligations.UninitBeforeStyleBeforeRange := by
  intro s d rest st x y w h c hsub hd
  rw [step_of_decode_ok hsub hd]
  refine ⟨fun hs => ?_, fun hs hst => ?_, fun hs hst hpos hout => ?_⟩
  · exact exec_of_uninitialized (s := { s with host := rest }) hs (.inl rfl)
  · exact execBorder_raises_style (s := { s with host := rest }) c hs hst
  · exact execBorder_raises_range (s := { s with host := rest }) c hs hst (outlineInRange_eq_false hpos hout)

/-- Past the READY check, or stopped by it with UNINIT (42_framebuffer.md R74). -/
theorem ifReady_fault_eq_or_uninit {s t u : State} (hu : u.fault = s.fault) (h : ifReady s (.next u) = .next t) :
    t.fault = s.fault ∨ t.fault = .uninit := by
  obtain ⟨_, he⟩ | ⟨_, he⟩ := ifReady_cases s (.next u)
  · cases he.symm.trans h
    exact .inl hu
  · cases he.symm.trans h
    exact .inr rfl

/-- PIXEL, CLEAR and SHOW check READY alone, INIT and CMD check nothing: none raises RANGE
(60_exceptions.md R97). -/
theorem exec_fault_eq_or_uninit {i : Instr} {s t : State} {x y : Int} {c : Bool} {b : Byte}
    (hi : i ∈ [Instr.pixel x y c, .clear, .showFrame, .init, .cmd b]) (h : exec i s = .next t) :
    t.fault = s.fault ∨ t.fault = .uninit := by
  simp only [List.mem_cons, List.not_mem_nil, or_false] at hi
  obtain rfl | rfl | rfl | rfl | rfl := hi
  · exact ifReady_fault_eq_or_uninit (u := afterPixel x y c s) rfl h
  · exact ifReady_fault_eq_or_uninit (u := afterClear s) rfl h
  · exact ifReady_fault_eq_or_uninit (sendData_call (Memory.frame s.cfg.fbSize s.fb) s).transferEnd.fault_eq h
  · obtain ⟨t', he, hend⟩ := execInit_end s
    cases he.symm.trans h
    exact .inl hend.fault_eq
  · obtain ⟨t', he, hend⟩ := execCmd_end b s
    cases he.symm.trans h
    exact .inl hend.fault_eq

/-- Settles O22: each shape past the READY check fails its range check; the other five leave FAULT or raise
UNINIT. -/
theorem rangeFaults : Obligations.RangeFaults := by
  refine ⟨fun s x y w h c st hs hst hout => ⟨fun hpos i hi => ?_, fun hw hh => ?_⟩, fun s x y c b hf i hi => ?_⟩
  · have hr := outlineInRange_eq_false hpos hout
    simp only [List.mem_cons, List.not_mem_nil, or_false] at hi
    obtain rfl | rfl | rfl | rfl := hi
    · exact drawOutline_raises_range c hs 1 hr
    · exact drawOutline_raises_range c hs 2 hr
    · exact drawOutline_raises_range c hs 3 hr
    · exact execBorder_raises_range c hs hst hr
  · exact execFill_raises_range c hs (fillInRange_eq_false hw hh hout)
  · obtain ⟨t, ht⟩ := exec_next i s
    refine ⟨t, ht, ?_⟩
    obtain he | he := exec_fault_eq_or_uninit hi ht
    · rwa [he]
    · simp [he]

/-! ## What the range check bounds -/

/-- A coordinate from one in range up to another is in range. -/
theorem inRange32_of_le {a b v : Int} (ha : InRange32 a) (hb : InRange32 b) (hav : a ≤ v) (hvb : v ≤ b) :
    InRange32 v :=
  ⟨ha.1.trans hav, hvb.trans hb.2⟩

/-- Settles O23: every coordinate of the loops lies between an operand and the computed extreme, and there is
one only where the check looks at the extremes. -/
theorem rangeCheckBoundsEveryCoordinate : Obligations.RangeCheckBoundsEveryCoordinate := by
  intro x y w h n hx hy _ _ hn _
  refine ⟨fun hcheck p hp => ?_, fun hcheck p hp => ?_⟩
  · obtain ⟨i, hi0, hi, -, hpx, hpy⟩ | ⟨j, hj0, hj, -, hpy, hpx⟩ :=
      (inOutline_iff ..).1 ((inOutline_iff_mem x y w h hn p.1 p.2).2 hp)
    · obtain ⟨hxe, hye⟩ := hcheck (.inl (by omega))
      refine ⟨inRange32_of_le hx hxe (by omega) (by omega), ?_⟩
      obtain hpy | hpy := hpy
      · exact hpy ▸ hy
      · exact hpy ▸ hye
    · obtain ⟨hxe, hye⟩ := hcheck (.inr (by omega))
      refine ⟨?_, inRange32_of_le hy hye (by omega) (by omega)⟩
      obtain hpx | hpx := hpx
      · exact hpx ▸ hx
      · exact hpx ▸ hxe
  · obtain ⟨hx0, hx1, hy0, hy1⟩ := (inRegion_iff ..).1 ((inRegion_iff_mem x y w h p.1 p.2).2 hp)
    obtain ⟨hxe, hye⟩ := hcheck (by omega) (by omega)
    exact ⟨inRange32_of_le hx hxe hx0 (by omega), inRange32_of_le hy hye hy0 (by omega)⟩

end Sys2Proof.Machine
end

section
/-! PROOFS. Bus writes that fail or are never answered: where LOG ends, and what a hang leaves
(60_exceptions.md R98, R102). -/

namespace Sys2Proof.Machine

/-- An operation draws, or is one of the three that reach the bus (42_framebuffer.md R79). -/
theorem draws_or_transfers (i : Instr) :
    i.draws = true ∨ i = .init ∨ i = .showFrame ∨ ∃ b, i = .cmd b := by
  cases i with
  | init => exact .inr (.inl rfl)
  | showFrame => exact .inr (.inr (.inl rfl))
  | cmd b => exact .inr (.inr (.inr ⟨b, rfl⟩))
  | clear | pixel | rect | fill | dashed | dotted | border => exact .inl rfl

/-- A drawing operation that answers `t` ends in `t` as a drawing operation does. -/
theorem drawEnd_of_exec {i : Instr} {s t : State} (hi : i.draws = true) (h : exec i s = .next t) :
    DrawEnd s t := by
  obtain ⟨t', ht', hend⟩ := exec_draw_end s hi
  cases ht'.symm.trans h
  exact hend

/-! ## Unanswered writes -/

/-- One more answer drawn after `n` answered writes. -/
theorem withRepliesDrawn_one_afterWrites (n : Nat) (es : List BusEvent) (s : State) :
    withRepliesDrawn 1 (afterWrites n es s) = afterWrites (n + 1) es s := by
  have hone (t : State) : withRepliesDrawn 1 t = afterWrites 1 [] t := by
    rw [afterWrites, List.append_nil]
    rfl
  rw [hone, afterWrites_afterWrites, List.append_nil]

/-- A bus write that is not answered, after `n` that are: nothing is appended for it (60_exceptions.md R102). -/
theorem busWrite_afterWrites_unanswered {addr : BusAddr} {bytes : List Byte} {hold : Bool} {s : State} {n : Nat}
    (es : List BusEvent) (h : replyAt s n = none) :
    busWrite addr bytes hold (afterWrites n es s) =
      (none, { afterWrites (n + 1) es s with hung := true }) := by
  have hreply : (drawReply (afterWrites n es s)).1 = none := (replyAt_afterWrites n 0 es s).trans h
  rw [busWrite_unanswered hreply, withRepliesDrawn_one_afterWrites]

theorem execCmd_unanswered (b : Byte) {s : State} (h : (drawReply s).1 = none) :
    exec (.cmd b) s = .next { withRepliesDrawn 1 s with hung := true } := by
  rw [exec, execCmd, sendCommand, busWrite_unanswered h]
  rfl

theorem execShow_of_control_unanswered {s : State} (hs : s.ctrl = .ready) (h : (drawReply s).1 = none) :
    exec .showFrame s = .next { withRepliesDrawn 1 s with hung := true } := by
  rw [execShow_of_ready hs, sendData, busWrite_unanswered h]
  rfl

theorem execShow_of_frame_unanswered {s : State} (hs : s.ctrl = .ready) (hctrl : replyAt s 0 = some .ack)
    (hdata : replyAt s 1 = none) :
    exec .showFrame s = .next { withRepliesDrawn 2 s with
      log := s.log ++ [.write s.cfg.devAddr [s.cfg.ctrlData] true .ack]
      hung := true } := by
  rw [execShow_of_ready hs, sendData, busWrite_eq_afterWrites hctrl, andThen,
    busWrite_afterWrites_unanswered _ hdata]
  rfl

/-- INIT hangs at the first byte that is not answered, every byte before it acknowledged. -/
theorem execInit_unanswered {s : State} {k : Nat} (hk : k < s.cfg.initSeq.length)
    (hacked : ∀ j, j < k → replyAt s j = some .ack) (h : replyAt s k = none) :
    exec .init s = .next { withRepliesDrawn (k + 1) s with
      log := s.log ++ .sleep s.cfg.settleMs :: acknowledged s.cfg (s.cfg.initSeq.take k)
      hung := true } := by
  rw [execInit_of_acked hk.le hacked, List.drop_eq_getElem_cons hk, sendCommands, sendCommand,
    busWrite_afterWrites_unanswered _ h]
  rfl

theorem step_of_hung {s : State} (hh : s.hung = true) (hhost : ∀ rest, s.host ≠ .reset :: rest) :
    step s = .fault .busHung := by
  cases he : s.host with
  | nil => rw [step_of_idle he, if_pos hh]
  | cons e rest =>
    cases e with
    | reset => exact absurd he (hhost rest)
    | submit d => rw [step_of_submit he, if_pos hh]

/-- Settles O50: by the answers drawn, write by write; a drawing operation reaches no bus. -/
theorem unansweredWriteHangsTheBlock : Obligations.UnansweredWriteHangsTheBlock := by
  refine ⟨fun s b h => ⟨execCmd_unanswered b h, fun hs => execShow_of_control_unanswered hs h⟩,
    fun s => execShow_of_frame_unanswered, fun s k => execInit_unanswered, fun s => step_of_hung,
    fun i s t h hne => ?_⟩
  refine (draws_or_transfers i).resolve_left fun hi => hne ?_
  obtain ⟨_, _, _, hhung⟩ := (drawEnd_of_exec hi h).bus_unused
  exact hhung

/-! ## Failed writes -/

/-- What `t` has appended to the LOG of `s` ends with a failed write at `addr`. -/
def EndsInFailedWrite (addr : BusAddr) (s t : State) : Prop :=
  ∃ es bytes hold, t.log = s.log ++ es ++ [.write addr bytes hold .fail]

theorem EndsInFailedWrite.after {addr : BusAddr} {s u t : State} (hu : BusFrame s u)
    (h : EndsInFailedWrite addr u t) : EndsInFailedWrite addr s t := by
  obtain ⟨es, hes⟩ := hu.log
  obtain ⟨fs, bytes, hold, hfs⟩ := h
  exact ⟨es ++ fs, bytes, hold, by rw [hfs, hes, List.append_assoc s.log]⟩

theorem busWrite_failed {addr : BusAddr} {bytes : List Byte} {hold : Bool} {s : State}
    (h : (busWrite addr bytes hold s).1 = some .fail) :
    EndsInFailedWrite addr s (busWrite addr bytes hold s).2 := by
  obtain ⟨_, _, ⟨a, he⟩ | he⟩ := busWrite_cases addr bytes hold s
  · rw [he] at h ⊢
    obtain rfl := Option.some.inj h
    exact ⟨[], bytes, hold, by rw [List.append_nil]⟩
  · simp [he] at h

/-- A framing that fails ends in its last write. -/
theorem andThen_failed {addr : BusAddr} {s : State} {r : BusReply × State} {k : State → BusReply × State}
    (hframe : BusFrame s r.2) (hr : r.1 = some .fail → EndsInFailedWrite addr s r.2)
    (hk : (k r.2).1 = some .fail → EndsInFailedWrite addr r.2 (k r.2).2)
    (h : (andThen r k).1 = some .fail) : EndsInFailedWrite addr s (andThen r k).2 := by
  obtain ⟨_, he⟩ | ⟨_, he⟩ := andThen_cases r k
  · rw [he] at h ⊢
    exact (hk h).after hframe
  · rw [he] at h ⊢
    exact hr h

theorem sendData_failed {bytes : List Byte} {s : State} (h : (sendData bytes s).1 = some .fail) :
    EndsInFailedWrite s.cfg.devAddr s (sendData bytes s).2 :=
  andThen_failed (busWrite_frame _ _ _ s) busWrite_failed busWrite_failed h

theorem sendCommands_failed {bs : List Byte} {s : State} (h : (sendCommands bs s).1 = some .fail) :
    EndsInFailedWrite s.cfg.devAddr s (sendCommands bs s).2 := by
  induction bs generalizing s with
  | nil => simp [sendCommands] at h
  | cons b bs ih =>
    have hframe := sendCommand_frame b s
    refine andThen_failed hframe busWrite_failed (fun hbs => ?_) h
    rw [← hframe.cfg]
    exact ih hbs

/-- CMD and SHOW newly leave TRANSPORT_FAILURE where their transfer fails (60_exceptions.md R98). -/
theorem failed_of_endTransfer {s : State} {r : BusReply × State} (hframe : BusFrame s r.2)
    (hs : s.last ≠ .transportFailure) (h : (endTransfer r).last = .transportFailure) : r.1 = some .fail := by
  obtain ⟨reply, u⟩ := r
  match reply with
  | some .fail => rfl
  | some .ack => simp [endTransfer, statusOf] at h
  | none => exact absurd (hframe.last.symm.trans h) hs

/-- INIT newly leaves TRANSPORT_FAILURE where its command loop fails (41_init.md R70). -/
theorem failed_of_endInit {s : State} {r : BusReply × State} (hframe : BusFrame s r.2)
    (hs : s.last ≠ .transportFailure) (h : (endInit r).last = .transportFailure) : r.1 = some .fail := by
  obtain ⟨reply, u⟩ := r
  match reply with
  | some .fail => rfl
  | some .ack => simp [endInit] at h
  | none => exact absurd (hframe.last.symm.trans h) hs

section
variable {s t : State} (hs : s.last ≠ .transportFailure) (ht : t.last = .transportFailure)
include hs ht

theorem execInit_failed (h : exec .init s = .next t) : EndsInFailedWrite s.cfg.devAddr s t := by
  cases h
  have hsleep := sleepFor_frame s.cfg.settleMs s
  have hfail := failed_of_endInit (hsleep.trans (sendCommands_frame _ _)) hs ht
  rw [EndsInFailedWrite, endInit_log]
  exact (sendCommands_failed hfail).after hsleep

theorem execCmd_failed {b : Byte} (h : exec (.cmd b) s = .next t) : EndsInFailedWrite s.cfg.devAddr s t := by
  cases h
  rw [EndsInFailedWrite, endTransfer_log]
  exact busWrite_failed (failed_of_endTransfer (sendCommand_frame b s) hs ht)

theorem execShow_failed (h : exec .showFrame s = .next t) : EndsInFailedWrite s.cfg.devAddr s t := by
  obtain ⟨_, he⟩ | ⟨_, he⟩ :=
    ifReady_cases s (.next (endTransfer (sendData (Memory.frame s.cfg.fbSize s.fb) s)))
  · cases he.symm.trans h
    rw [EndsInFailedWrite, endTransfer_log]
    exact sendData_failed (failed_of_endTransfer (sendData_frame _ s) hs ht)
  · cases he.symm.trans h
    simp at ht

end

/-- A drawing operation leaves OK or FAULTED. -/
theorem DrawEnd.last_ne_transportFailure {s t : State} (h : DrawEnd s t) : t.last ≠ .transportFailure := by
  cases h <;> simp

/-- Settles O52: only a failed transfer gives the status; a fault would have left FAULTED; and the transfer
stops at the write that failed. -/
theorem transportFailureIsNoFault : Obligations.TransportFailureIsNoFault := by
  intro i s t h hs ht
  have hi : i = .init ∨ i = .showFrame ∨ ∃ b, i = .cmd b :=
    (draws_or_transfers i).resolve_left fun hi => (drawEnd_of_exec hi h).last_ne_transportFailure ht
  refine ⟨hi, ?_, ?_⟩
  · refine (exec_fault_eq_or_faulted h).resolve_right fun hfaulted => ?_
    rw [hfaulted] at ht
    simp at ht
  · obtain rfl | rfl | ⟨b, rfl⟩ := hi
    · exact execInit_failed hs ht h
    · exact execShow_failed hs ht h
    · exact execCmd_failed hs ht h

end Sys2Proof.Machine
end

section
/-! PROOFS. The reset event (70_reset_and_hazards.md R107). -/

namespace Sys2Proof.Machine

/-- STATUS reads CTRL, FAULT and LAST alone, and a restart sets the three as `State.reset` does. -/
@[simp] theorem restart_status (s : State) (rest : List HostEvent) :
    (restart s rest).status = 0x00000000#32 := by
  obtain ⟨_, _, _, _, hreset, _⟩ := resetValues
  have hsame : (restart s rest).status = State.reset.status := rfl
  rw [hsame, hreset]

/-- Settles O16: the step is `restart`, whatever condition the block is in, and its fields are the laws of
`restart`. -/
theorem resetEventRestartsTheBlock : Obligations.ResetEventRestartsTheBlock := fun s rest h =>
  ⟨restart s rest, step_of_reset h, restart_ctrl s rest, restart_fault s rest, restart_last s rest,
    restart_log s rest, restart_status s rest, restart_hung s rest, restart_cfg s rest, restart_host s rest⟩

end Sys2Proof.Machine
end

section
/-! PROOFS. The model's own inputs: placed table words, an absent event, and the answers of bus writes
(log entries 10, 8 and 4). -/

namespace Sys2Proof.Machine

/-! ## A placed table word -/

/-- A placed word's descriptor is one that the decoder reads. -/
theorem decode_of_decodeTableWord {nbits w : Nat} {i : Instr} (h : decodeTableWord nbits w = some i) :
    decode (tableDescriptor nbits w) = .ok i := by
  unfold decodeTableWord at h
  split at h
  next => simp at h
  next j hj => rw [hj, Option.some.inj h]

/-- A placed word's descriptor is a submission to a block that takes one. -/
theorem submits_withFetchWord {s : State} (nbits w : Nat) (hh : s.hung = false) (hf : s.fault = .none) :
    Submits (s.withFetchWord nbits w) (tableDescriptor nbits w) s.host :=
  ⟨hh, hf, withFetchWord_host s nbits w⟩

/-- Settles O12: the placed word is a submission that decodes, and taking it gives back the state before. -/
theorem tableWordRunsNext : Obligations.TableWordRunsNext := by
  intro s nbits w i hh hf hi
  exact step_of_decode_ok (submits_withFetchWord nbits w hh hf) (decode_of_decodeTableWord hi)

/-! ## No event -/

/-- Settles O13: by the step with no event, which asks only whether the block is hung. -/
theorem idleBlockKeepsItsState : Obligations.IdleBlockKeepsItsState := by
  intro s hhost hh
  rw [step_of_idle hhost, if_neg (by simp [hh])]

/-! ## The answers of bus writes -/

/-- With the inputs used up, an answer is a free draw (40_transport.md R59). -/
theorem drawReply_nil {s : State} (h : s.bus = []) :
    drawReply s = (Config.freeBusReply s.draws, { s with draws := s.draws + 1 }) := by
  rw [drawReply, h]

/-- Settles O53: by the two sources of `drawReply`. -/
theorem answersAreInputsThenFreeDraws : Obligations.AnswersAreInputsThenFreeDraws :=
  ⟨fun _ _ _ h => drawReply_cons h, fun _ h => drawReply_nil h⟩

end Sys2Proof.Machine
end
